-- ==== Sys2Proof/Word.lean ====
section
/-! DEFINITION. The word types of the block and the five-byte frame (00_scope R10, 10_state R28, 30_encoding R86). -/

namespace Sys2Proof

/-- An 8-bit value: a buffer cell, the shift register, an event word (R25, R26, R28). -/
abbrev Byte := BitVec 8

/-- A 16-bit value field of the result word (R87): unsigned tenths of humidity, two's-complement tenths of temperature. -/
abbrev Tenths := BitVec 16

/-- The five bytes of a frame, `b0` to `b4` of `buf[0]` to `buf[4]` (R28, R86). -/
structure Frame where
  b0 : Byte
  b1 : Byte
  b2 : Byte
  b3 : Byte
  b4 : Byte
deriving DecidableEq, Repr

end Sys2Proof
end

