-- ==== Sys2Proof/Config.lean ====
section
/-! DEFINITION. The parameters of an instance (00_scope R6) and the values the spec leaves free. -/

namespace Sys2Proof

/-- The parameters of rule R6, arguments of the model. They stand in `State.par`, where no step writes them
(R31: "constants of an instance, not registers"), so a claim about every state is a claim about every parameter
value. DESIGN CHOICE, safe: entry 1. -/
structure Params where
  /-- clock cycles the line is driven low at initiation -/
  nSettle : Nat
  /-- clock cycles between the detect edge and the sample edge, less one -/
  nSampleDelay : Nat
  /-- nominal clock period in microseconds; "no rule of the cycle-level model reads it" (R6) -/
  tCycleUs : Nat
  /-- host: minimum re-acquisition interval -/
  minIntervalMs : Nat
  /-- host: the fixed wait after the trigger, in milliseconds -/
  waitMs : Nat
  /-- the fixed wait in engine clock edges (R174, D21) -/
  waitCycles : Nat
deriving DecidableEq, Repr

/-- The defaults of R6. -/
def Params.default : Params :=
  { nSettle := 9, nSampleDelay := 2, tCycleUs := 10, minIntervalMs := 2000, waitMs := 20, waitCycles := 2000 }

/-- `WAIT_MS × 1000 µs / T_CYCLE`, the nominal number of edges in the wait (R6, R174). -/
def Params.nominalWaitCycles (p : Params) : Nat := p.waitMs * 1000 / p.tCycleUs

/-- The level of the data line at an edge for which no input word was given: "a free draw of the environment"
(R11, U24). FREE VALUE, entry 3. -/
opaque Config.freeLine : Nat → Bool

/-- The milliseconds that pass on the host's clock over such an edge: the two time bases are independent (R8, U25).
FREE VALUE, entry 3. -/
opaque Config.freeElapse : Nat → Nat

/-- The edges by which the host's read falls after WAIT_CYCLES: it "falls at an arbitrary cycle at or after
`WAIT_CYCLES`" (U25). FREE VALUE, entry 6. -/
opaque Config.freeWaitSlack : Nat → Nat

end Sys2Proof
end

