-- ==== Sys2Proof/Syntax.lean ====
section
/-! DEFINITION. The eighteen operations (30_encoding R93), the six word formats they are encoded in (R80), and the
moves of a stimulus (R81, R92). -/

namespace Sys2Proof

/-- The operations of `opcode_table.json`, one constructor per row (R93). The nine phase operations read the line
level from the input port (`Env.lineI`), as R115 to R121 do; the two wire symbols put it there. -/
inductive Instr where
  | reset
  | start
  | idle
  | initLow
  | ackWaitH1
  | ackWaitL
  | ackWaitH2
  | bitWaitL
  | bitWaitH
  | sampleDelay
  | sample
  /-- operand: the whole event word (R85) -/
  | append (d : Byte)
  /-- operand: the frame word, `count` and the five bytes (R86) -/
  | decode (n : BitVec 3) (f : Frame)
  | readTemperature (force : Bool)
  | readHumidity (force : Bool)
  | readBoth (force : Bool)
  | sym0
  | sym1
deriving DecidableEq, Repr

/-- The formats of R80 that encode an operation (format R, the result word, is an output: `Result.word`). -/
inductive Format where
  | I | P | E | F | A | W
deriving DecidableEq, Repr

/-- A word of one format, with the width the format has (R80 to R88). -/
inductive OpWord where
  /-- format I, the input word `{rst, start, line_i}` (R81) -/
  | input (w : BitVec 3)
  /-- format P, the phase code (R82) -/
  | phase (c : BitVec 4)
  /-- format E, the event word (R85) -/
  | event (d : BitVec 8)
  /-- format F, `count` in bits 42..40 and the frame in 39..0 (R86, DECODE row of opcode_table.json) -/
  | frame (w : BitVec 43)
  /-- format A, `op` in bits 2..1 and `force` in bit 0 (R88) -/
  | api (a : BitVec 3)
  /-- format W reduced to its one decoded bit (R83, R93) -/
  | wire (l : BitVec 1)
deriving DecidableEq, Repr

def OpWord.format : OpWord → Format
  | .input _ => .I
  | .phase _ => .P
  | .event _ => .E
  | .frame _ => .F
  | .api _ => .A
  | .wire _ => .W

def OpWord.toNat : OpWord → Nat
  | .input w => w.toNat
  | .phase c => c.toNat
  | .event d => d.toNat
  | .frame w => w.toNat
  | .api a => a.toNat
  | .wire l => l.toNat

/-- What comes to the machine from outside, in the order it comes (entry 2). A stimulus in the sense of R9 and R81
is the list of its `input` words; the other moves are the host's callers, the environment and time. -/
inductive Move where
  /-- one rising edge with this input word (R81) -/
  | input (w : BitVec 3)
  /-- one rising edge with no command and the line level as it stands -/
  | edge
  /-- the environment puts a wire symbol on the line (R83) -/
  | wire (l : BitVec 1)
  /-- a caller issues a public operation (R88) -/
  | call (a : BitVec 3)
  /-- the zero-time observation DECODE of the stimulus assembly (R92) -/
  | observe
  /-- the host's millisecond clock moves on (R186) -/
  | elapse (ms : Nat)
deriving DecidableEq, Repr

end Sys2Proof
end

