-- ==== Sys2Proof/WellFormed.lean ====
section
/-! DEFINITION. What a term of the syntax must satisfy beyond its types. Every format has one fixed width (R80) and
the types carry it, so the checks left are those on values the spec reserves. -/

namespace Sys2Proof

/-- Every operation is well formed: the operands have their exact widths by type, and no operand value is reserved
("every one of the 2^40 frames is legal input to DECODE", R89). -/
def Instr.wellFormed : Instr → Bool
  | .reset | .start => true
  | .idle | .initLow | .ackWaitH1 | .ackWaitL | .ackWaitH2 => true
  | .bitWaitL | .bitWaitH | .sampleDelay | .sample => true
  | .append _ => true
  | .decode _ _ => true
  | .readTemperature _ | .readHumidity _ | .readBoth _ => true
  | .sym0 | .sym1 => true

/-- A word is well formed when its value is not one of the reserved ones of R89: phase codes 9 to 15, API `op = 00`. -/
def OpWord.wellFormed : OpWord → Bool
  | .input _ => true
  | .phase c => decide (c.toNat ≤ 8)
  | .event _ => true
  | .frame _ => true
  | .api a => decide (a.extractLsb' 1 2 ≠ 0#2)
  | .wire _ => true

/-- A move is well formed when the word it carries is. -/
def Move.wellFormed : Move → Bool
  | .call a => (OpWord.api a).wellFormed
  | .input _ | .edge | .wire _ | .observe | .elapse _ => true

/-- The legal ranges of R6: `N_SETTLE` and `N_SAMPLE_DELAY` in 1..16. -/
def Params.wellFormed (p : Params) : Bool :=
  decide (1 ≤ p.nSettle) && decide (p.nSettle ≤ 16) && decide (1 ≤ p.nSampleDelay) && decide (p.nSampleDelay ≤ 16)

end Sys2Proof
end

