-- ==== Sys2Proof/Decode.lean ====
section
/-! DEFINITION. The decoder of the six word formats, total and rejecting by name, then the encoder, both written from
30_encoding R81 to R89, and the opcode table as rows of mask and match. -/

namespace Sys2Proof

/-! ### Phase codes (R21, R82) -/

abbrev Phase.idle : BitVec 4 := 0#4
abbrev Phase.initLow : BitVec 4 := 1#4
abbrev Phase.ackWaitH1 : BitVec 4 := 2#4
abbrev Phase.ackWaitL : BitVec 4 := 3#4
abbrev Phase.ackWaitH2 : BitVec 4 := 4#4
abbrev Phase.bitWaitL : BitVec 4 := 5#4
abbrev Phase.bitWaitH : BitVec 4 := 6#4
abbrev Phase.sampleDelay : BitVec 4 := 7#4
abbrev Phase.sample : BitVec 4 := 8#4

/-! ### Decoding -/

/-- Why a word is no operation by itself. -/
inductive DecodeError where
  /-- input word `00l`: it selects the phase operation, whose code is in `phase` (R81) -/
  | noCommand
  /-- phase codes 9 to 15 (R89, R127) -/
  | reservedPhase (c : BitVec 4)
  /-- API word with `op = 00` (R88, R89) -/
  | reservedApiOp (a : BitVec 3)
deriving DecidableEq, Repr

/-- Format I (R81): `1xx` RESET, `01x` START, `00l` no command. -/
def decodeInput (w : BitVec 3) : Except DecodeError Instr :=
  if w.getLsbD 2 then .ok .reset
  else if w.getLsbD 1 then .ok .start
  else .error .noCommand

/-- Format P (R82). -/
def decodePhase (c : BitVec 4) : Except DecodeError Instr :=
  match c.toNat with
  | 0 => .ok .idle
  | 1 => .ok .initLow
  | 2 => .ok .ackWaitH1
  | 3 => .ok .ackWaitL
  | 4 => .ok .ackWaitH2
  | 5 => .ok .bitWaitL
  | 6 => .ok .bitWaitH
  | 7 => .ok .sampleDelay
  | 8 => .ok .sample
  | _ => .error (.reservedPhase c)

/-- The `count` field of a format F word: bits 42..40, where the DECODE row of opcode_table.json puts it (R80, R86). -/
def countOfWord (w : BitVec 43) : BitVec 3 := w.extractLsb' 40 3

/-- The five bytes of a format F word: `buf[0]` in bits 39..32 down to `buf[4]` in 7..0 (R86). -/
def frameOfWord (w : BitVec 43) : Frame :=
  { b0 := w.extractLsb' 32 8, b1 := w.extractLsb' 24 8, b2 := w.extractLsb' 16 8, b3 := w.extractLsb' 8 8,
    b4 := w.extractLsb' 0 8 }

/-- Format A (R88): `op` 01 temperature, 10 humidity, 11 both, 00 reserved; `force` in bit 0. -/
def decodeApi (a : BitVec 3) : Except DecodeError Instr :=
  match (a.extractLsb' 1 2).toNat with
  | 1 => .ok (.readTemperature (a.getLsbD 0))
  | 2 => .ok (.readHumidity (a.getLsbD 0))
  | 3 => .ok (.readBoth (a.getLsbD 0))
  | _ => .error (.reservedApiOp a)

/-- Format W (R83, R121): the level at the sample strobe. -/
def decodeWire (l : BitVec 1) : Instr := if l.getLsbD 0 then .sym1 else .sym0

/-- The decoder, total on the words of every format. -/
def decode : OpWord → Except DecodeError Instr
  | .input w => decodeInput w
  | .phase c => decodePhase c
  | .event d => .ok (.append d)
  | .frame w => .ok (.decode (countOfWord w) (frameOfWord w))
  | .api a => decodeApi a
  | .wire l => .ok (decodeWire l)

/-! ### Encoding -/

/-- `{count, b0, b1, b2, b3, b4}` (R86 and the DECODE row of opcode_table.json). -/
def frameWord (n : BitVec 3) (f : Frame) : BitVec 43 := n ++ f.b0 ++ f.b1 ++ f.b2 ++ f.b3 ++ f.b4

/-- `{op, force}` (R88). -/
def apiWord (op : BitVec 2) (force : Bool) : BitVec 3 := op ++ BitVec.ofBool force

/-- The word of an operation, written from the tables of 30_encoding; bits the spec ignores are 0. -/
def encode : Instr → OpWord
  | .reset => .input 0b100#3
  | .start => .input 0b010#3
  | .idle => .phase 0b0000#4
  | .initLow => .phase 0b0001#4
  | .ackWaitH1 => .phase 0b0010#4
  | .ackWaitL => .phase 0b0011#4
  | .ackWaitH2 => .phase 0b0100#4
  | .bitWaitL => .phase 0b0101#4
  | .bitWaitH => .phase 0b0110#4
  | .sampleDelay => .phase 0b0111#4
  | .sample => .phase 0b1000#4
  | .append d => .event d
  | .decode n f => .frame (frameWord n f)
  | .readTemperature force => .api (apiWord 0b01#2 force)
  | .readHumidity force => .api (apiWord 0b10#2 force)
  | .readBoth force => .api (apiWord 0b11#2 force)
  | .sym0 => .wire 0b0#1
  | .sym1 => .wire 0b1#1

/-! ### The opcode table -/

/-- A row of `opcode_table.json`: a word of the row's format belongs to it when its masked bits equal `value`. -/
structure Row where
  format : Format
  width : Nat
  mask : Nat
  value : Nat
deriving DecidableEq, Repr

/-- The row of an operation, as the table gives it. -/
def rowOf : Instr → Row
  | .reset => ⟨.I, 3, 0x4, 0x4⟩
  | .start => ⟨.I, 3, 0x6, 0x2⟩
  | .idle => ⟨.P, 4, 0xF, 0x0⟩
  | .initLow => ⟨.P, 4, 0xF, 0x1⟩
  | .ackWaitH1 => ⟨.P, 4, 0xF, 0x2⟩
  | .ackWaitL => ⟨.P, 4, 0xF, 0x3⟩
  | .ackWaitH2 => ⟨.P, 4, 0xF, 0x4⟩
  | .bitWaitL => ⟨.P, 4, 0xF, 0x5⟩
  | .bitWaitH => ⟨.P, 4, 0xF, 0x6⟩
  | .sampleDelay => ⟨.P, 4, 0xF, 0x7⟩
  | .sample => ⟨.P, 4, 0xF, 0x8⟩
  | .append _ => ⟨.E, 8, 0x00, 0x00⟩
  | .decode _ _ => ⟨.F, 43, 0x0, 0x0⟩
  | .readTemperature _ => ⟨.A, 3, 0x6, 0x2⟩
  | .readHumidity _ => ⟨.A, 3, 0x6, 0x4⟩
  | .readBoth _ => ⟨.A, 3, 0x6, 0x6⟩
  | .sym0 => ⟨.W, 1, 0x1, 0x0⟩
  | .sym1 => ⟨.W, 1, 0x1, 0x1⟩

/-- Whether a word belongs to a row. -/
def Row.matches (r : Row) (w : OpWord) : Bool :=
  decide (w.format = r.format) && decide (w.toNat &&& r.mask = r.value)

/-! ### Table words without their format -/

/-- The word a number of `nbits` bits stands for. The table's formats overlap as numbers, so a bare number names no
format: DESIGN CHOICE, entry 11. Exact widths are read as their format (three bits as format I); a whole byte is a
phase code up to 8 and an event word above; 43 or 48 bits are a frame word. -/
def tableWord (nbits w : Nat) : Option OpWord :=
  match nbits with
  | 1 => if w < 2 then some (.wire (BitVec.ofNat 1 w)) else none
  | 3 => if w < 8 then some (.input (BitVec.ofNat 3 w)) else none
  | 4 => if w < 16 then some (.phase (BitVec.ofNat 4 w)) else none
  | 8 =>
    if w ≤ 8 then some (.phase (BitVec.ofNat 4 w))
    else if w < 256 then some (.event (BitVec.ofNat 8 w))
    else none
  | 43 | 48 => if w < 2 ^ 43 then some (.frame (BitVec.ofNat 43 w)) else none
  | _ => none

/-- The operation the decoder reads from a table word. -/
def decodeTableWord (nbits w : Nat) : Option Instr :=
  match tableWord nbits w with
  | some o => (decode o).toOption
  | none => none

end Sys2Proof
end

