-- ==== Sys2Proof/Machine/State.lean ====
section
/-! DEFINITION. The state of the block and of its host (10_state), grouped by the agent that owns it (R20), the reasons
a step can stop, and the state after reset (R37). -/

namespace Sys2Proof.Machine

/-- The Frame Buffer as a list of (address, byte), the one storage space there is (R60). An address that is not
listed reads 0x00, the reset and cleared content (R37, R141). -/
abbrev Memory := List Host.Cell

/-- The Timing Engine's registers (R21 to R26). -/
structure Engine where
  /-- the program counter (R21) -/
  phase : BitVec 4
  cyc : BitVec 4
  bitcnt : BitVec 3
  bytecnt : BitVec 3
  shreg : Byte
  evValid : Bool
  evData : Byte
deriving DecidableEq, Repr

/-- The Byte Assembler's storage (R28, R29). -/
structure Assembler where
  buf : Memory
  count : BitVec 3
deriving DecidableEq, Repr

/-- The two failure kinds (R200). -/
inductive Failure where
  | incompleteFrame
  | checksumMismatch
deriving DecidableEq, Repr

/-- The outcome of DECODE, a sum type as R155 asks: a failure, or the pair of values. -/
inductive Result where
  | ok (hum temp : Tenths)
  | fail (f : Failure)
deriving DecidableEq, Repr

/-- What the result port shows in one cycle (R30, R63): `count`, the frame and the outcome of DECODE. -/
structure Snapshot where
  count : BitVec 3
  frame : Frame
  result : Result
deriving DecidableEq, Repr

/-- The Cached Reading while it is valid (R32): signed and unsigned tenths and the timestamp. -/
structure Reading where
  temp : Int
  hum : Nat
  ts : Nat
deriving DecidableEq, Repr

/-- The host's control state (R33, R170). -/
inductive Coord where
  | idle
  | triggering
  | waiting
  | decoding
deriving DecidableEq, Repr

/-- Which public operation is running (R177 to R179). -/
inductive Request where
  | temperature
  | humidity
  | both
deriving DecidableEq, Repr

/-- What a public operation returns; `none` inside is UNAVAILABLE (R180). -/
inductive Answer where
  | temperature (v : Option Int)
  | humidity (v : Option Nat)
  | both (v : Option (Int × Nat))
deriving DecidableEq, Repr

/-- The host's state (R32, R33). `cache = none` is `cache.valid = 0` (R180, U16). The fields `call`, `waitLeft`,
`wakeAt`, `answer`, `snapshot` carry what R170 to R180 say of a call in progress: entry 10. -/
structure Coordinator where
  coord : Coord
  /-- the public call in progress -/
  call : Option Request
  /-- clock edges left of the fixed wait -/
  waitLeft : Nat
  /-- host time at which the fixed wait ends -/
  wakeAt : Nat
  nowMs : Nat
  cache : Option Reading
  /-- the diagnostics sink, oldest report first -/
  sink : List Failure
  /-- what the last finished call returned -/
  answer : Option Answer
  /-- the last snapshot taken of the result port -/
  snapshot : Option Snapshot
deriving DecidableEq, Repr

/-- The outside of the block: the level on the input port, the stimulus still to come, and the counter the free
values are drawn from (entries 2, 3, 4). -/
structure Env where
  lineI : Bool
  stimulus : List Move
  draws : Nat
deriving DecidableEq, Repr

/-- The whole state, by owner (R20). `par` is constant: entry 1. -/
structure State where
  eng : Engine
  asm : Assembler
  host : Coordinator
  env : Env
  par : Params
deriving DecidableEq, Repr

/-- The situations the spec tells a model to treat as faults (R209). -/
inductive Fault where
  /-- raised by APPEND when `count` names no cell (R142, U2); safe: no claim passes through it. Entry 8. -/
  | overrun
  /-- raised by a clock edge without command whose `phase` is 9 to 15 (R127, U3), also where an overrun coincides
  (DESIGN CHOICE, entry 22); safe. Entry 8. -/
  | reservedPhase (c : BitVec 4)
deriving DecidableEq, Repr

/-- The moves the spec tells a model to refuse, and instructions without a meaning. -/
inductive Refusal where
  /-- raised by `exec` for an instruction whose meaning is not written; safe -/
  | notModelled (mnemonic : String)
  /-- raised by a READ operation while another runs (R181, U1); safe. Entry 9. -/
  | overlappingCall
  /-- raised by a caller's word with `op = 00` (R89, U15); safe. Entry 9. -/
  | reservedApiOp (a : BitVec 3)
deriving DecidableEq, Repr

/-- The engine after RESET (R37, R111). -/
def Engine.reset : Engine :=
  { phase := Phase.idle, cyc := 0#4, bitcnt := 0#3, bytecnt := 0#3, shreg := 0#8, evValid := false, evData := 0#8 }

/-- The assembler after RESET and after CLEAR (R37, R141): no cell listed, so every cell reads 0. -/
def Assembler.cleared : Assembler := { buf := [], count := 0#3 }

/-- The host as constructed (R185): cache empty, `coord = Idle`. `nowMs` is the platform's clock; 0 is a DESIGN
CHOICE (entry 5), as are the fields of entry 10. -/
def Coordinator.constructed : Coordinator :=
  { coord := .idle, call := none, waitLeft := 0, wakeAt := 0, nowMs := 0, cache := none, sink := [],
    answer := none, snapshot := none }

/-- Right after reset (R37, R231, R232) with a host just constructed and the default parameters (R6). -/
def State.reset : State :=
  { eng := Engine.reset, asm := Assembler.cleared, host := Coordinator.constructed,
    env := { lineI := true, stimulus := [], draws := 0 }, par := Params.default }

end Sys2Proof.Machine
end

