-- ==== Sys2Proof/Machine/Operands.lean ====
section
/-! DEFINITION. Operand assembly: the fields DECODE takes from a frame (30_encoding R90), the frame as the engine
samples it (R84), and ENCODE, the inverse the round-trip property needs (42_validator_decoder R159). -/

namespace Sys2Proof.Machine

/-- `rawHumidity = {b0, b1}`, unsigned (R90, R153). -/
def rawHumidity (f : Frame) : BitVec 16 := f.b0 ++ f.b1

/-- `{b2[6:0], b3}`, 15 bits (R90, R154). -/
def rawMagnitude (f : Frame) : BitVec 15 := f.b2.extractLsb' 0 7 ++ f.b3

/-- Bit 7 of `b2` (R90, R154). -/
def signBit (f : Frame) : Bool := f.b2.getLsbD 7

/-- `temp_x10`: the magnitude, negated in 16 bits when the sign is set (R154, R157). -/
def signedTenths (f : Frame) : BitVec 16 :=
  if signBit f then -((rawMagnitude f).setWidth 16) else (rawMagnitude f).setWidth 16

/-- `v = {shreg[6:0], line_i}` (R121): the first sampled bit of a byte ends up in bit 7. -/
def shiftIn (sh : Byte) (l : Bool) : Byte := sh.extractLsb' 0 7 ++ BitVec.ofBool l

/-- The bits of a byte in the order they are sampled, bit 7 first (R61, R84). -/
def byteBits (b : Byte) : List Bool :=
  [b.getLsbD 7, b.getLsbD 6, b.getLsbD 5, b.getLsbD 4, b.getLsbD 3, b.getLsbD 2, b.getLsbD 1, b.getLsbD 0]

/-- The forty symbols of a frame in arrival order s0 to s39 (R61, R84). -/
def frameBits (f : Frame) : List Bool :=
  byteBits f.b0 ++ byteBits f.b1 ++ byteBits f.b2 ++ byteBits f.b3 ++ byteBits f.b4

/-- The byte sum of a frame's data bytes, exact (R152, R157). -/
def checksumSum (f : Frame) : Nat := f.b0.toNat + f.b1.toNat + f.b2.toNat + f.b3.toNat

/-- ENCODE (R159), the test-side inverse of DECODE: a valid frame from tenths `h` and `t`, `t` in -32767..32767. -/
def encodeReading (h : BitVec 16) (t : Int) : Frame :=
  let m : BitVec 15 := BitVec.ofNat 15 t.natAbs
  let b0 : Byte := h.extractLsb' 8 8
  let b1 : Byte := h.extractLsb' 0 8
  let b2 : Byte := BitVec.ofBool (decide (t < 0)) ++ m.extractLsb' 8 7
  let b3 : Byte := m.extractLsb' 0 8
  { b0 := b0, b1 := b1, b2 := b2, b3 := b3, b4 := BitVec.ofNat 8 (b0.toNat + b1.toNat + b2.toNat + b3.toNat) }

end Sys2Proof.Machine
end

