-- ==== Sys2Proof/Machine/Flags.lean ====
section
/-! DEFINITION. The block has no flags or condition codes (10_state R31). What stands in their place is the `status`
field of the result port, recomputed in every cycle: the two checks of DECODE and the result word. -/

namespace Sys2Proof.Machine

/-- Completeness check, tested first (R151). -/
def complete (n : BitVec 3) : Bool := decide (n = 5#3)

/-- Checksum check: the low 8 bits of the sum of `b0` to `b3` equal `b4` (R152). -/
def checksumOk (f : Frame) : Bool := decide (checksumSum f % 256 = f.b4.toNat)

/-- `status` codes (R87, R200). -/
def Result.status : Result → BitVec 2
  | .ok _ _ => 0#2
  | .fail .incompleteFrame => 1#2
  | .fail .checksumMismatch => 2#2

/-- `hum_x10` as the port shows it: 0 on failure (R155). -/
def Result.humPort : Result → BitVec 16
  | .ok h _ => h
  | .fail _ => 0#16

/-- `temp_x10` as the port shows it: 0 on failure (R155). -/
def Result.tempPort : Result → BitVec 16
  | .ok _ t => t
  | .fail _ => 0#16

/-- Format R, `{status, hum_x10, temp_x10}` (R87). -/
def Result.word (r : Result) : BitVec 34 := r.status ++ r.humPort ++ r.tempPort

end Sys2Proof.Machine
end

