-- ==== Sys2Proof/Machine/Ops.lean ====
section
/-! DEFINITION. The shared operations the meanings are written over: the Frame Buffer, the engine's registers, the
result port, and the host's side of an acquisition with the handling of a failure (60_exceptions R205). -/

namespace Sys2Proof.Machine

/-! ### The Frame Buffer (20_memory) -/

/-- The number of cells; addresses from here on name none (R60, R64). -/
abbrev bufCells : Nat := 5

/-- What a cell reads as; a cell not listed reads 0x00 (R37, R141). -/
def byteAt : Memory → Nat → Byte
  | [], _ => 0#8
  | (x, v) :: m, a => if x = a then v else byteAt m a

/-- One cell takes a value, the list staying in canonical form: a zero is not listed. -/
def putByte : Memory → Nat → Byte → Memory
  | [], a, v => if v = 0#8 then [] else [(a, v)]
  | (x, u) :: m, a, v =>
    if a < x then (if v = 0#8 then (x, u) :: m else (a, v) :: (x, u) :: m)
    else if a = x then (if v = 0#8 then m else (a, v) :: m)
    else (x, u) :: putByte m a v

/-- `MemWrite(i, 1, v)` (R11): only 0..4 select a cell (R60). -/
def memWrite (m : Memory) (i : Nat) (v : Byte) : Option Memory :=
  if i < bufCells then some (putByte m i v) else none

/-- `MemRead(0, 5)` (R11), the only read there is: the whole buffer as one snapshot (R63). -/
def memFrame (m : Memory) : Frame :=
  { b0 := byteAt m 0, b1 := byteAt m 1, b2 := byteAt m 2, b3 := byteAt m 3, b4 := byteAt m 4 }

/-- The buffer that holds a given frame. -/
def memOfFrame (f : Frame) : Memory :=
  putByte (putByte (putByte (putByte (putByte [] 0 f.b0) 1 f.b1) 2 f.b2) 3 f.b3) 4 f.b4

/-- The canonical form from address `lo` on: addresses rise, lie in 0..4, and no listed byte is 0. -/
def wfFrom : Nat → Memory → Bool
  | _, [] => true
  | lo, (a, v) :: m => decide (lo ≤ a) && decide (a < bufCells) && decide (v ≠ 0#8) && wfFrom (a + 1) m

/-- The canonical form of the Frame Buffer. -/
def Memory.wf (m : Memory) : Bool := wfFrom 0 m

/-! ### Parts of the state -/

def State.withEng (s : State) (e : Engine) : State := { s with eng := e }
def State.withAsm (s : State) (a : Assembler) : State := { s with asm := a }
def State.withHost (s : State) (h : Coordinator) : State := { s with host := h }
def State.withEnv (s : State) (v : Env) : State := { s with env := v }

/-- Runs `f` on the next state, and passes a fault or a refusal on. -/
def andThen (o : Host.Outcome State Fault Refusal) (f : State → Host.Outcome State Fault Refusal) :
    Host.Outcome State Fault Refusal :=
  match o with
  | .next s => f s
  | .fault r => .fault r
  | .refused r => .refused r

/-! ### The engine's registers (40_timing_engine) -/

/-- `ev_valid <- 0`, as every engine operation but a completing SAMPLE does (R26, R110). -/
def Engine.noEvent (e : Engine) : Engine := { e with evValid := false }

/-- `emit(v)` (R11, R26). -/
def Engine.emit (e : Engine) (v : Byte) : Engine := { e with evValid := true, evData := v }

/-- A wait: the phase moves on when `line_i` has the awaited level at this edge, and stays otherwise (R115 to R119,
R123, D22). -/
def waitLevel (want : Bool) (target : BitVec 4) (s : State) : State :=
  s.withEng (if s.env.lineI = want then { s.eng.noEvent with phase := target } else s.eng.noEvent)

/-- A timed phase of `n` edges: at the last one the phase moves on and `cyc` returns to 0 (R114, R120). For `n` outside
1..16 see entry 19. -/
def countEdges (n : Nat) (target : BitVec 4) (s : State) : State :=
  s.withEng (if s.eng.cyc.toNat + 1 = n then { s.eng.noEvent with phase := target, cyc := 0#4 }
    else { s.eng.noEvent with cyc := s.eng.cyc + 1#4 })

/-- CLEAR (R141): the buffer and `count` to 0. -/
def clearFrame (s : State) : State := s.withAsm Assembler.cleared

/-- `line_oe` (R27): driven in `P_IDLE` and `P_INIT_LOW`, released otherwise. -/
def lineOe (s : State) : Bool := decide (s.eng.phase = Phase.idle) || decide (s.eng.phase = Phase.initLow)

/-- `line_o` (R27): low in `P_INIT_LOW` only. -/
def lineO (s : State) : Bool := !decide (s.eng.phase = Phase.initLow)

/-! ### The result port (42_validator_decoder) -/

/-- DECODE as a function of the frame word (R150 to R154): completeness, then checksum, then the values. -/
def decodeFrame (n : BitVec 3) (f : Frame) : Result :=
  if complete n then
    if checksumOk f then .ok (rawHumidity f) (signedTenths f) else .fail .checksumMismatch
  else .fail .incompleteFrame

/-- The result port in this cycle (R30, R63). -/
def resultPort (s : State) : Snapshot :=
  { count := s.asm.count, frame := memFrame s.asm.buf, result := decodeFrame s.asm.count (memFrame s.asm.buf) }

/-! ### The host (43_host_coordinator) -/

/-- What a finished call returns: the requested fields of the cache, or UNAVAILABLE (R177 to R180). -/
def answerOf (q : Request) (c : Option Reading) : Answer :=
  match q with
  | .temperature => .temperature (c.map (fun r => r.temp))
  | .humidity => .humidity (c.map (fun r => r.hum))
  | .both => .both (c.map (fun r => (r.temp, r.hum)))

/-- The gating condition (R172); "exceeds" is strict (D18). -/
def needAcquire (force : Bool) (h : Coordinator) (p : Params) : Bool :=
  match h.cache with
  | none => true
  | some r => force || decide (r.ts + p.minIntervalMs < h.nowMs)

/-- A public call arrives (R172, R177 to R179). Served from the cache it returns at once; otherwise the host goes to
`Triggering` and the call is in progress (entry 17). While another call runs there is no such move (R181, U1). -/
def beginRead (q : Request) (force : Bool) (s : State) : Host.Outcome State Fault Refusal :=
  match s.host.coord with
  | .idle =>
    if needAcquire force s.host s.par then .next (s.withHost { s.host with coord := .triggering, call := some q })
    else .next (s.withHost { s.host with answer := some (answerOf q s.host.cache) })
  | .triggering | .waiting | .decoding => .refused .overlappingCall

/-- The end of the fixed wait (R174): when no edge is left the host goes to `Decoding`, and its clock has reached the
time at which the wait ends. -/
def settleWait (h : Coordinator) : Coordinator :=
  if h.waitLeft = 0 then { h with coord := .decoding, nowMs := max h.nowMs h.wakeAt } else h

/-- `Triggering` at the edge that carries the strobe: the wait is loaded and the host moves to `Waiting` (R173, R174).
The wait lasts WAIT_CYCLES edges and a free slack (U25, entry 6). -/
def beginWait (s : State) : State :=
  (s.withHost (settleWait { s.host with
      coord := .waiting,
      waitLeft := s.par.waitCycles + Config.freeWaitSlack s.env.draws,
      wakeAt := s.host.nowMs + s.par.waitMs })).withEnv { s.env with draws := s.env.draws + 1 }

/-- What a clock edge means to the host: the strobe is given, or one edge of the wait has passed (R173, R174). -/
def hostEdge (s : State) : State :=
  match s.host.coord with
  | .triggering => beginWait s
  | .waiting => s.withHost (settleWait { s.host with waitLeft := s.host.waitLeft - 1 })
  | .idle | .decoding => s

/-- Taking a failure (R205): it is reported to the diagnostics sink; the cache and its timestamp stay. -/
def takeFailure (f : Failure) (h : Coordinator) : Coordinator := { h with sink := h.sink ++ [f] }

/-- A successful acquisition: the cache is written as a whole with the time of the update (R175, D17). -/
def storeReading (hum temp : Tenths) (h : Coordinator) : Coordinator :=
  { h with cache := some { temp := temp.toInt, hum := hum.toNat, ts := h.nowMs } }

/-- Acting on a snapshot in `Decoding` (R175). -/
def actOn (r : Result) (h : Coordinator) : Coordinator :=
  match r with
  | .fail f => takeFailure f h
  | .ok hum temp => storeReading hum temp h

/-- The return to the caller (R176, R206): `Idle` regardless of outcome, with the stale, fresh or unavailable value. -/
def returnToCaller (h : Coordinator) : Coordinator :=
  match h.call with
  | some q => { h with coord := .idle, call := none, answer := some (answerOf q h.cache) }
  | none => { h with coord := .idle }

/-- `Decoding` (R175, R176): one snapshot of the result port, acted on, then back to `Idle`. The block is not touched. -/
def finishAcquire (s : State) : State :=
  s.withHost (returnToCaller (actOn (resultPort s).result { s.host with snapshot := some (resultPort s) }))

end Sys2Proof.Machine
end

