-- ==== Sys2Proof/Machine/Assemble.lean ====
section
/-! DEFINITION. The Byte Assembler's APPEND (41_byte_assembler R140, R142). -/

namespace Sys2Proof.Machine

/-- APPEND (R140) of the event word `d`: with an event pending, `buf[count] <- d` and `count <- count + 1` on one edge.
A `count` that names no cell is the overrun, a fault in a model (R142, R209). Without an event nothing happens. -/
def execAppend (d : Byte) (s : State) : Host.Outcome State Fault Refusal :=
  if s.eng.evValid then
    match memWrite s.asm.buf s.asm.count.toNat d with
    | some m => .next (s.withAsm { buf := m, count := s.asm.count + 1#3 })
    | none => .fault .overrun
  else .next s

end Sys2Proof.Machine
end

