-- ==== Sys2Proof/Machine/Coordinate.lean ====
section
/-! DEFINITION. The host's three public operations (43_host_coordinator R177 to R179). -/

namespace Sys2Proof.Machine

/-- READ_TEMPERATURE(force) (R177). -/
def execReadTemperature (force : Bool) (s : State) : Host.Outcome State Fault Refusal :=
  beginRead .temperature force s

/-- READ_HUMIDITY(force) (R178). -/
def execReadHumidity (force : Bool) (s : State) : Host.Outcome State Fault Refusal :=
  beginRead .humidity force s

/-- READ_BOTH(force) (R179). -/
def execReadBoth (force : Bool) (s : State) : Host.Outcome State Fault Refusal :=
  beginRead .both force s

end Sys2Proof.Machine
end

