-- ==== Sys2Proof/Machine/Input.lean ====
section
/-! DEFINITION. The two input-selected operations of the engine: RESET and START (40_timing_engine R111, R112). -/

namespace Sys2Proof.Machine

/-- RESET (R111): every register of the block to the table of R37; the host is not touched. -/
def execReset (s : State) : Host.Outcome State Fault Refusal := .next ((clearFrame s).withEng Engine.reset)

/-- START (R112): CLEAR and restart on one edge, whatever the phase (R70, D8). -/
def execStart (s : State) : Host.Outcome State Fault Refusal :=
  .next ((clearFrame s).withEng { Engine.reset with phase := Phase.initLow })

end Sys2Proof.Machine
end

