-- ==== Sys2Proof/Machine/Phases.lean ====
section
/-! DEFINITION. The nine phase micro-operations of the Timing Engine (40_timing_engine R113 to R121). -/

namespace Sys2Proof.Machine

/-- IDLE (R113). -/
def execIdle (s : State) : Host.Outcome State Fault Refusal :=
  .next (s.withEng { s.eng.noEvent with phase := Phase.idle })

/-- INIT_LOW (R114): `N_SETTLE` edges. -/
def execInitLow (s : State) : Host.Outcome State Fault Refusal :=
  .next (countEdges s.par.nSettle Phase.ackWaitH1 s)

/-- ACK_WAIT_H1 (R115). -/
def execAckWaitH1 (s : State) : Host.Outcome State Fault Refusal := .next (waitLevel true Phase.ackWaitL s)

/-- ACK_WAIT_L (R116). -/
def execAckWaitL (s : State) : Host.Outcome State Fault Refusal := .next (waitLevel false Phase.ackWaitH2 s)

/-- ACK_WAIT_H2 (R117). -/
def execAckWaitH2 (s : State) : Host.Outcome State Fault Refusal := .next (waitLevel true Phase.bitWaitL s)

/-- BIT_WAIT_L (R118). -/
def execBitWaitL (s : State) : Host.Outcome State Fault Refusal := .next (waitLevel false Phase.bitWaitH s)

/-- BIT_WAIT_H (R119): on the detect edge `cyc` is set to 0 as well. -/
def execBitWaitH (s : State) : Host.Outcome State Fault Refusal :=
  .next (s.withEng (if s.env.lineI then { s.eng.noEvent with phase := Phase.sampleDelay, cyc := 0#4 }
    else s.eng.noEvent))

/-- SAMPLE_DELAY (R120): `N_SAMPLE_DELAY` edges. -/
def execSampleDelay (s : State) : Host.Outcome State Fault Refusal :=
  .next (countEdges s.par.nSampleDelay Phase.sample s)

/-- SAMPLE (R121): shift the level in; on the eighth bit emit the byte, and after the fifth byte go to `P_IDLE`. -/
def execSample (s : State) : Host.Outcome State Fault Refusal :=
  let v := shiftIn s.eng.shreg s.env.lineI
  .next (s.withEng
    (if s.eng.bitcnt ≠ 7#3 then
      { s.eng.noEvent with shreg := v, bitcnt := s.eng.bitcnt + 1#3, phase := Phase.bitWaitL }
    else if s.eng.bytecnt ≠ 4#3 then
      { s.eng.emit v with shreg := v, bitcnt := 0#3, bytecnt := s.eng.bytecnt + 1#3, phase := Phase.bitWaitL }
    else
      { s.eng.emit v with shreg := v, bitcnt := 0#3, bytecnt := 0#3, phase := Phase.idle }))

end Sys2Proof.Machine
end

