-- ==== Sys2Proof/Machine/Validate.lean ====
section
/-! DEFINITION. DECODE (42_validator_decoder R150 to R158) as an operation on a frame word. -/

namespace Sys2Proof.Machine

/-- DECODE (R150) of `count = n` and the frame `f`: it writes no state of the block or of the host's control (R158);
what the port shows for these operands is recorded as the snapshot taken (R92, entry 10). -/
def execDecode (n : BitVec 3) (f : Frame) (s : State) : Host.Outcome State Fault Refusal :=
  .next (s.withHost { s.host with snapshot := some { count := n, frame := f, result := decodeFrame n f } })

end Sys2Proof.Machine
end

