-- ==== Sys2Proof/Machine/Wire.lean ====
section
/-! DEFINITION. The two wire symbols the environment produces (30_encoding R83, R93, 40_timing_engine R121): format W
reduced to its one decoded bit, the level of `line_i` at the sample strobe. -/

namespace Sys2Proof.Machine

/-- SYM0: the level that stands on `line_i` for the strobe is 0 (entry 4). -/
def execSym0 (s : State) : Host.Outcome State Fault Refusal := .next (s.withEnv { s.env with lineI := false })

/-- SYM1: the level that stands on `line_i` for the strobe is 1 (entry 4). -/
def execSym1 (s : State) : Host.Outcome State Fault Refusal := .next (s.withEnv { s.env with lineI := true })

end Sys2Proof.Machine
end

