-- ==== Sys2Proof/Machine/Dispatch.lean ====
section
/-! DEFINITION. One arm per operation of the table (30_encoding R93). -/

namespace Sys2Proof.Machine

def exec (i : Instr) (s : State) : Host.Outcome State Fault Refusal :=
  match i with
  -- input-selected operations
  | .reset => Sys2Proof.Machine.execReset s
  | .start => Sys2Proof.Machine.execStart s
  -- phase micro-operations
  | .idle => Sys2Proof.Machine.execIdle s
  | .initLow => Sys2Proof.Machine.execInitLow s
  | .ackWaitH1 => Sys2Proof.Machine.execAckWaitH1 s
  | .ackWaitL => Sys2Proof.Machine.execAckWaitL s
  | .ackWaitH2 => Sys2Proof.Machine.execAckWaitH2 s
  | .bitWaitL => Sys2Proof.Machine.execBitWaitL s
  | .bitWaitH => Sys2Proof.Machine.execBitWaitH s
  | .sampleDelay => Sys2Proof.Machine.execSampleDelay s
  | .sample => Sys2Proof.Machine.execSample s
  -- assembler, decoder
  | .append d => Sys2Proof.Machine.execAppend d s
  | .decode n f => Sys2Proof.Machine.execDecode n f s
  -- host
  | .readTemperature force => Sys2Proof.Machine.execReadTemperature force s
  | .readHumidity force => Sys2Proof.Machine.execReadHumidity force s
  | .readBoth force => Sys2Proof.Machine.execReadBoth force s
  -- wire symbols
  | .sym0 => Sys2Proof.Machine.execSym0 s
  | .sym1 => Sys2Proof.Machine.execSym1 s

end Sys2Proof.Machine
end

