-- ==== Sys2Proof/Machine/Schedule.lean ====
section
/-! DEFINITION. How one step is made up: a clock edge with its priorities (30_encoding R93, 60_exceptions R208), the
moves of a stimulus, the host's own move, and the placing of a word where the next step runs it. -/

namespace Sys2Proof.Machine

/-- The edge of an input word `00l` (R81, R93): the phase operation the code in `phase` selects, with APPEND beside it
when an event is pending. They write disjoint registers (R208) and neither reads what the other writes but
`ev_valid`, which APPEND reads before the phase operation clears it, so APPEND is run first (entry 14). A reserved phase
faults before APPEND is looked at, so where an overrun coincides with it the fault named is the reserved phase: the spec
gives the two no order, DESIGN CHOICE, entry 22. -/
def phaseEdge (s : State) : Host.Outcome State Fault Refusal :=
  match decodePhase s.eng.phase with
  | .ok i => if s.eng.evValid then andThen (exec (.append s.eng.evData) s) (exec i) else exec i s
  | .error _ => .fault (.reservedPhase s.eng.phase)

/-- The block's part of an edge with input word `w`: RESET over START over the phase operation (R93, R110, R208). -/
def blockEdge (w : BitVec 3) (s : State) : Host.Outcome State Fault Refusal :=
  match decodeInput w with
  | .ok i => exec i s
  | .error _ => phaseEdge s

/-- The input word as it stands on the ports: the host drives `start` high at the edge of `Triggering` (R171, R173). -/
def portWord (w : BitVec 3) (s : State) : BitVec 3 :=
  match s.host.coord with
  | .triggering => w ||| 0b010#3
  | .idle | .waiting | .decoding => w

/-- One rising clock edge (R7): `line_i` takes its level, the block moves, and the host sees the edge pass. -/
def clockEdge (w : BitVec 3) (s : State) : Host.Outcome State Fault Refusal :=
  andThen (blockEdge (portWord w s) (s.withEnv { s.env with lineI := w.getLsbD 0 })) (fun t => .next (hostEdge t))

/-- An input word with no command. -/
def lineWord (l : Bool) : BitVec 3 := 0b00#2 ++ BitVec.ofBool l

/-- An edge for which the stimulus gives nothing: no command, the line level and the time that passes are free draws
(R11, U24, entry 3). -/
def freeEdge (s : State) : Host.Outcome State Fault Refusal :=
  clockEdge (lineWord (Config.freeLine s.env.draws))
    ((s.withHost { s.host with nowMs := s.host.nowMs + Config.freeElapse s.env.draws }).withEnv
      { s.env with draws := s.env.draws + 1 })

/-- A caller's word (R88): the public operation it encodes, or no such move for `op = 00` (R89, U15). -/
def apiCall (a : BitVec 3) (s : State) : Host.Outcome State Fault Refusal :=
  match decodeApi a with
  | .ok i => exec i s
  | .error _ => .refused (.reservedApiOp a)

/-- One move of the stimulus. -/
def playMove (m : Move) (s : State) : Host.Outcome State Fault Refusal :=
  match m with
  | .input w => clockEdge w s
  | .edge => clockEdge (lineWord s.env.lineI) s
  | .wire l => exec (decodeWire l) s
  | .call a => apiCall a s
  | .observe => exec (.decode s.asm.count (memFrame s.asm.buf)) s
  | .elapse ms => .next (s.withHost { s.host with nowMs := s.host.nowMs + ms })

/-- The next move: a host in `Decoding` takes its snapshot before the next edge (R175, R208, entry 16); otherwise the
front of the stimulus is played; with none left the clock runs on. -/
def nextMove (s : State) : Host.Outcome State Fault Refusal :=
  if s.host.coord = .decoding then .next (finishAcquire s)
  else
    match s.env.stimulus with
    | [] => freeEdge s
    | m :: rest => playMove m (s.withEnv { s.env with stimulus := rest })

/-- A move put in front of the stimulus, with no public call in progress, so that the next step plays it. -/
def pushMove (m : Move) (s : State) : State :=
  (s.withHost { s.host with coord := .idle, call := none }).withEnv { s.env with stimulus := m :: s.env.stimulus }

/-- A word placed where the next step runs it (entry 12): an input word, a call and a wire symbol in the stimulus; a
phase code in `phase`; an event word in the event register; a frame word in `count` and the buffer. -/
def placeWord (o : OpWord) (s : State) : State :=
  match o with
  | .input w => pushMove (.input w) s
  | .phase c => (pushMove (.input (lineWord false)) s).withEng { s.eng.noEvent with phase := c }
  | .event d => (pushMove (.input (lineWord false)) s).withEng (s.eng.emit d)
  | .frame w =>
    (pushMove .observe s).withAsm { buf := memOfFrame (frameOfWord w), count := countOfWord w }
  | .api a => pushMove (.call a) s
  | .wire l => pushMove (.wire l) s

end Sys2Proof.Machine
end

