-- ==== Sys2Proof/Machine/Step.lean ====
section
/-! DEFINITION. One step of the machine, and the placing of a table word for the next step. -/

namespace Sys2Proof.Machine

/-- One step: the next move of whichever agent the state names (R7, R20; entry 2). -/
def step (s : State) : Host.Outcome State Fault Refusal := nextMove s

/-- `s` with the operation a table word encodes placed so that the next step runs it (entries 11, 12). -/
def State.withFetchWord (s : State) (nbits w : Nat) : State :=
  match tableWord nbits w with
  | some o => placeWord o s
  | none => s

end Sys2Proof.Machine
end

