-- ==== Sys2Proof/Machine/Stimulus.lean ====
section
/-! DEFINITION. The stimulus assembly of 30_encoding R92 as lists of moves, for tests and statements. EXPECT is an
assertion of a test and has no move. -/

namespace Sys2Proof.Machine.Stim

/-- RESET: one edge `0b100`. -/
def reset : List Move := [.input 0b100#3]
/-- START: one edge `0b010`. -/
def start : List Move := [.input 0b010#3]
/-- `L n`. -/
def low (n : Nat) : List Move := List.replicate n (.input 0b000#3)
/-- `H n`. -/
def high (n : Nat) : List Move := List.replicate n (.input 0b001#3)
/-- `X n`, written as low. -/
def any (n : Nat) : List Move := low n
/-- DECODE: the zero-time observation. -/
def observe : List Move := [.observe]
/-- INIT = `X 9`. -/
def init : List Move := any 9
/-- ACK = `H 3`, `L 8`, `H 8`. -/
def ack : List Move := high 3 ++ low 8 ++ high 8
/-- BIT0 = `L 5`, `H 3`; BIT1 = `L 5`, `H 7`. -/
def bit (b : Bool) : List Move := low 5 ++ high (if b then 7 else 3)
/-- BYTE v. -/
def byte (v : Byte) : List Move := (byteBits v).flatMap bit
/-- FRAME b0 b1 b2 b3 b4. -/
def frame (f : Frame) : List Move := (frameBits f).flatMap bit
/-- TAIL = `L 5`, `H 1`. -/
def tail : List Move := low 5 ++ high 1

end Sys2Proof.Machine.Stim
end

