-- ==== Sys2Proof/Safety.lean ====
section
/-! DEFINITION. What a safe state is: the invariants of 10_state R36 and R38, by the agent whose state they bind, in the
terms the statements use. -/

namespace Sys2Proof.Machine

/-- The engine and assembler invariant of R38, with the run of `cyc` in the timed phases (R22). -/
structure BlockInv (s : State) : Prop where
  phase_legal : s.eng.phase.toNat ≤ 8
  bytecnt_le : s.eng.bytecnt.toNat ≤ 4
  count_le : s.asm.count.toNat ≤ 5
  cyc_zero : s.eng.phase ≠ Phase.initLow → s.eng.phase ≠ Phase.sampleDelay → s.eng.cyc = 0#4
  cyc_settle : s.eng.phase = Phase.initLow → s.eng.cyc.toNat < s.par.nSettle
  cyc_delay : s.eng.phase = Phase.sampleDelay → s.eng.cyc.toNat < s.par.nSampleDelay
  count_quiet : s.eng.phase ≠ Phase.idle → s.eng.evValid = false → s.asm.count = s.eng.bytecnt
  count_event : s.eng.phase ≠ Phase.idle → s.eng.evValid = true → s.asm.count.toNat + 1 = s.eng.bytecnt.toNat
  idle_counters : s.eng.phase = Phase.idle → s.eng.bytecnt = 0#3 ∧ s.eng.bitcnt = 0#3
  idle_count : s.eng.phase = Phase.idle →
    (s.eng.evValid = true ∧ s.asm.count = 4#3) ∨
    (s.eng.evValid = false ∧ (s.asm.count = 0#3 ∨ s.asm.count = 5#3))

/-- The buffer is in canonical form, and the cells from `count` on read 0 (R143, U23). -/
structure BufferInv (s : State) : Prop where
  canonical : Memory.wf s.asm.buf = true
  rest_zero : ∀ a, s.asm.count.toNat ≤ a → byteAt s.asm.buf a = 0#8

/-- The host: a call is in progress exactly outside `Idle` (R170), a wait has edges left, and the timestamp lies in the
past (R186). -/
structure HostInv (s : State) : Prop where
  idle_no_call : s.host.coord = .idle ↔ s.host.call = none
  wait_left : s.host.coord = .waiting → 0 < s.host.waitLeft
  ts_past : ∀ r, s.host.cache = some r → r.ts ≤ s.host.nowMs

/-- The whole invariant, for an instance whose parameters are in the legal ranges of R6. -/
structure State.Inv (s : State) : Prop where
  params : s.par.wellFormed = true
  block : BlockInv s
  buffer : BufferInv s
  host : HostInv s

/-! ### Runs -/

/-- `n` steps, stopping at the first fault or refusal. -/
def runSteps : Nat → State → Host.Outcome State Fault Refusal
  | 0, s => .next s
  | n + 1, s => andThen (step s) (runSteps n)

/-- SAMPLE executed once per level, the level standing on `line_i` at each strobe (R121). -/
def sampleLevels : List Bool → State → Host.Outcome State Fault Refusal
  | [], s => .next s
  | l :: ls, s => andThen (exec .sample (s.withEnv { s.env with lineI := l })) (sampleLevels ls)

/-- The same state with another level on `line_i`. -/
def withLine (l : Bool) (s : State) : State := s.withEnv { s.env with lineI := l }

/-- The same state with this stimulus still to come. -/
def withStimulus (ms : List Move) (s : State) : State := s.withEnv { s.env with stimulus := ms }

/-- Edges without command, with these line levels. -/
def levelMoves (ls : List Bool) : List Move := ls.map (fun l => .input (lineWord l))

/-- The gating condition of R172 in integers. -/
def mustAcquire (force : Bool) (s : State) : Prop :=
  force = true ∨ s.host.cache = none ∨
    ∃ r, s.host.cache = some r ∧ (s.host.nowMs : Int) - r.ts > s.par.minIntervalMs

/-- The five phases that wait for a level, with the level awaited (R123). -/
def awaits (c : BitVec 4) : Option Bool :=
  if c = Phase.ackWaitH1 ∨ c = Phase.ackWaitH2 ∨ c = Phase.bitWaitH then some true
  else if c = Phase.ackWaitL ∨ c = Phase.bitWaitL then some false
  else none

end Sys2Proof.Machine
end

