-- ==== Sys2Proof/Certificates/Slice0/Obligations.lean ====
section
/-! DEFINITION. The statements about the model, one definition each; OBLIGATIONS.json lists them. -/

open Sys2Proof Sys2Proof.Machine

/-! ### Encodings -/

/-- Decoding inverts encoding on every operation, and encoding inverts decoding on every word of every format whose
bits are all significant (all but format I, whose `x` bits R81 ignores). -/
def Obligations.DecodeAndEncodeAgree : Prop :=
  (∀ i : Instr, i.wellFormed = true → decode (encode i) = .ok i) ∧
  (∀ (w : OpWord) (i : Instr), decode w = .ok i → w.format ≠ .I → encode i = w)

/-- The decoder agrees with the opcode table: a decoded word matches the row of its operation, and a word that matches
a row of its format decodes to an operation of that row. So no two rows of one format overlap. -/
def Obligations.DecoderFollowsOpcodeTable : Prop :=
  (∀ (w : OpWord) (i : Instr), decode w = .ok i → (rowOf i).matches w = true) ∧
  (∀ (w : OpWord) (i : Instr), (rowOf i).matches w = true → ∃ j, decode w = .ok j ∧ rowOf j = rowOf i)

/-- The words the decoder rejects, each under its name, are the reserved ones of R89 and the input words without
command of R81, and no others. -/
def Obligations.OnlyReservedWordsRejected : Prop :=
  (∀ c : BitVec 4, 9 ≤ c.toNat → decode (.phase c) = .error (.reservedPhase c)) ∧
  (∀ a : BitVec 3, a.toNat < 2 → decode (.api a) = .error (.reservedApiOp a)) ∧
  (∀ w : BitVec 3, w.toNat < 2 → decode (.input w) = .error .noCommand) ∧
  (∀ (o : OpWord) (e : DecodeError), decode o = .error e →
    (∃ c : BitVec 4, o = .phase c ∧ 9 ≤ c.toNat) ∨ (∃ a : BitVec 3, o = .api a ∧ a.toNat < 2) ∨
    (∃ w : BitVec 3, o = .input w ∧ w.toNat < 2))

/-- Words written out from the tables of 30_encoding decode to the operations they stand for. -/
def Obligations.WrittenWordsDecode : Prop :=
  decode (.input 0b111#3) = .ok .reset ∧ decode (.input 0b011#3) = .ok .start ∧
  decode (.phase 0b0111#4) = .ok .sampleDelay ∧ decode (.event 0xA0#8) = .ok (.append 0xA0#8) ∧
  decode (.frame 0x5028C0111A0#43) = .ok (.decode 5#3 ⟨0x02#8, 0x8C#8, 0x01#8, 0x11#8, 0xA0#8⟩) ∧
  decode (.api 0b101#3) = .ok (.readHumidity true) ∧ decode (.wire 1#1) = .ok .sym1

/-! ### A step runs the decoded instruction -/

/-- A step runs what the front of the stimulus and the phase register encode. With the host not in `Decoding`: an edge
with input word `w` (with `start` raised by a host in `Triggering`) runs RESET, else START, else the operation the phase
code decodes to, with APPEND of the event register before it when an event is pending; `line_i` takes `w[0]` first and
the host's edge follows. A caller's word, a wire symbol and an observation run the operation they decode to. -/
def Obligations.StepRunsTheDecodedInstruction : Prop :=
  ∀ (s : State) (rest : List Move), s.host.coord ≠ .decoding →
    (∀ (w : BitVec 3) (i : Instr), s.env.stimulus = .input w :: rest → decodeInput (portWord w s) = .ok i →
      step s = andThen (exec i (withLine (w.getLsbD 0) (withStimulus rest s))) (fun t => .next (hostEdge t))) ∧
    (∀ (w : BitVec 3) (i : Instr), s.env.stimulus = .input w :: rest → decodeInput (portWord w s) = .error .noCommand →
      decodePhase s.eng.phase = .ok i →
      step s = andThen
        (if s.eng.evValid then
          andThen (exec (.append s.eng.evData) (withLine (w.getLsbD 0) (withStimulus rest s))) (exec i)
        else exec i (withLine (w.getLsbD 0) (withStimulus rest s))) (fun t => .next (hostEdge t))) ∧
    (∀ (a : BitVec 3) (i : Instr), s.env.stimulus = .call a :: rest → decode (.api a) = .ok i →
      step s = exec i (withStimulus rest s)) ∧
    (∀ (l : BitVec 1) (i : Instr), s.env.stimulus = .wire l :: rest → decode (.wire l) = .ok i →
      step s = exec i (withStimulus rest s)) ∧
    (∀ i : Instr, s.env.stimulus = .observe :: rest →
      decode (.frame (frameWord s.asm.count (memFrame s.asm.buf))) = .ok i → step s = exec i (withStimulus rest s))

/-- What coincides at one edge: RESET over START over the phase operation with APPEND. That a reserved phase is the fault
named even where a pending event overruns at the same edge is the model's choice (entry 22). -/
def Obligations.EdgePriority : Prop :=
  ∀ (w : BitVec 3) (s : State),
    (w.getLsbD 2 = true → blockEdge w s = exec .reset s) ∧
    (w.getLsbD 2 = false → w.getLsbD 1 = true → blockEdge w s = exec .start s) ∧
    (∀ i, w.getLsbD 2 = false → w.getLsbD 1 = false → decodePhase s.eng.phase = .ok i → s.eng.evValid = false →
      blockEdge w s = exec i s) ∧
    (∀ i, w.getLsbD 2 = false → w.getLsbD 1 = false → decodePhase s.eng.phase = .ok i → s.eng.evValid = true →
      blockEdge w s = andThen (exec (.append s.eng.evData) s) (exec i)) ∧
    (w.getLsbD 2 = false → w.getLsbD 1 = false → 9 ≤ s.eng.phase.toNat →
      blockEdge w s = .fault (.reservedPhase s.eng.phase))

/-- The phase operation and APPEND of one edge act together: the engine ends as the phase operation alone leaves it,
the buffer and `count` as APPEND alone leaves them, whatever the order (R7, R208). -/
def Obligations.AppendAndPhaseOperationAreSimultaneous : Prop :=
  ∀ (s u v : State) (c : BitVec 4) (i : Instr), decodePhase c = .ok i → s.eng.evValid = true →
    exec (.append s.eng.evData) s = .next u → exec i s = .next v →
    andThen (exec (.append s.eng.evData) s) (exec i) = .next { v with asm := u.asm }

/-! ### Reset and START -/

/-- The reset state has the values of the table of R37. -/
def Obligations.ResetValuesAreTheTable : Prop :=
  State.reset.eng.phase = 0#4 ∧ State.reset.eng.cyc = 0#4 ∧ State.reset.eng.bitcnt = 0#3 ∧
  State.reset.eng.bytecnt = 0#3 ∧ State.reset.eng.shreg = 0x00#8 ∧ State.reset.eng.evValid = false ∧
  State.reset.eng.evData = 0x00#8 ∧ lineOe State.reset = true ∧ lineO State.reset = true ∧
  (∀ a, byteAt State.reset.asm.buf a = 0x00#8) ∧ State.reset.asm.count = 0#3 ∧
  (resultPort State.reset).result.status = 1#2 ∧ (resultPort State.reset).result.humPort = 0#16 ∧
  (resultPort State.reset).result.tempPort = 0#16 ∧ State.reset.host.cache = none ∧
  State.reset.host.coord = .idle ∧ State.reset.host.sink = [] ∧
  (∀ s, ∃ t, exec .reset s = .next t ∧ t.eng = State.reset.eng ∧ t.asm = State.reset.asm)

/-- RESET from any state at all, the power-on state among them: the block to its reset values, everything else kept,
the line driven high. -/
def Obligations.ResetClearsTheBlock : Prop :=
  ∀ s : State, ∃ t, exec .reset s = .next t ∧
    t.eng.phase = 0#4 ∧ t.eng.cyc = 0#4 ∧ t.eng.bitcnt = 0#3 ∧ t.eng.bytecnt = 0#3 ∧ t.eng.shreg = 0x00#8 ∧
    t.eng.evValid = false ∧ t.eng.evData = 0x00#8 ∧ (∀ a, byteAt t.asm.buf a = 0x00#8) ∧ t.asm.count = 0#3 ∧
    t.host = s.host ∧ t.env = s.env ∧ t.par = s.par ∧ lineOe t = true ∧ lineO t = true ∧
    ∀ w : BitVec 3, w.getLsbD 2 = true → blockEdge w s = .next t

/-- START in any phase: the buffer and `count` cleared, any pending event and partial byte dropped, the engine at the
first cycle of the initiation pulse with the line driven low, everything else kept. -/
def Obligations.StartRestartsFromEveryPhase : Prop :=
  ∀ s : State, ∃ t, exec .start s = .next t ∧
    t.eng.phase = Phase.initLow ∧ t.eng.cyc = 0#4 ∧ t.eng.bitcnt = 0#3 ∧ t.eng.bytecnt = 0#3 ∧ t.eng.shreg = 0x00#8 ∧
    t.eng.evValid = false ∧ t.eng.evData = 0x00#8 ∧ (∀ a, byteAt t.asm.buf a = 0x00#8) ∧ t.asm.count = 0#3 ∧
    t.host = s.host ∧ t.env = s.env ∧ t.par = s.par ∧ lineOe t = true ∧ lineO t = false ∧
    (∀ w : BitVec 3, w.getLsbD 2 = false → w.getLsbD 1 = true → blockEdge w s = .next t) ∧
    exec .start t = .next t

/-! ### The phase micro-operations: results, completion and frames -/

/-- IDLE: the phase stays `P_IDLE`, the event bit falls, nothing else changes. -/
def Obligations.IdleKeepsEverythingElse : Prop :=
  ∀ s : State, exec .idle s = .next { s with eng := { s.eng with phase := 0#4, evValid := false } }

/-- INIT_LOW: `cyc` counts up; at `cyc = N_SETTLE - 1` the phase moves on and `cyc` returns to 0. Nothing but the
event bit changes besides. -/
def Obligations.InitLowCountsItsEdges : Prop :=
  ∀ s : State, s.par.wellFormed = true →
    (s.eng.cyc.toNat = s.par.nSettle - 1 →
      exec .initLow s = .next { s with eng := { s.eng with phase := 2#4, cyc := 0#4, evValid := false } }) ∧
    (s.eng.cyc.toNat ≠ s.par.nSettle - 1 →
      exec .initLow s = .next { s with eng := { s.eng with cyc := s.eng.cyc + 1#4, evValid := false } })

/-- SAMPLE_DELAY: as INIT_LOW, for `N_SAMPLE_DELAY` edges and the phase `P_SAMPLE`. -/
def Obligations.SampleDelayCountsItsEdges : Prop :=
  ∀ s : State, s.par.wellFormed = true →
    (s.eng.cyc.toNat = s.par.nSampleDelay - 1 →
      exec .sampleDelay s = .next { s with eng := { s.eng with phase := 8#4, cyc := 0#4, evValid := false } }) ∧
    (s.eng.cyc.toNat ≠ s.par.nSampleDelay - 1 →
      exec .sampleDelay s = .next { s with eng := { s.eng with cyc := s.eng.cyc + 1#4, evValid := false } })

/-- The five waits: the phase moves on exactly when `line_i` has the awaited level at this edge; the event bit falls;
BIT_WAIT_H also sets `cyc` to 0; nothing else changes. -/
def Obligations.WaitsMoveOnAtTheAwaitedLevel : Prop :=
  ∀ s : State,
    exec .ackWaitH1 s = .next { s with eng := { s.eng with
      evValid := false, phase := if s.env.lineI = true then 3#4 else s.eng.phase } } ∧
    exec .ackWaitL s = .next { s with eng := { s.eng with
      evValid := false, phase := if s.env.lineI = false then 4#4 else s.eng.phase } } ∧
    exec .ackWaitH2 s = .next { s with eng := { s.eng with
      evValid := false, phase := if s.env.lineI = true then 5#4 else s.eng.phase } } ∧
    exec .bitWaitL s = .next { s with eng := { s.eng with
      evValid := false, phase := if s.env.lineI = false then 6#4 else s.eng.phase } } ∧
    exec .bitWaitH s = .next { s with eng := { s.eng with
      evValid := false, phase := if s.env.lineI = true then 7#4 else s.eng.phase,
      cyc := if s.env.lineI = true then 0#4 else s.eng.cyc } }

/-- SAMPLE: the level enters at bit 0; seven times out of eight that is all but the count; the eighth emits the byte;
the fifth byte ends the acquisition in `P_IDLE` with the line driven high. Nothing outside the engine changes. -/
def Obligations.SampleShiftsAndEmits : Prop :=
  ∀ s : State, ∃ t, exec .sample s = .next t ∧
    t.asm = s.asm ∧ t.host = s.host ∧ t.env = s.env ∧ t.par = s.par ∧ t.eng.cyc = s.eng.cyc ∧
    t.eng.shreg.toNat = (2 * s.eng.shreg.toNat + s.env.lineI.toNat) % 256 ∧
    (s.eng.bitcnt.toNat < 7 → t.eng.bitcnt.toNat = s.eng.bitcnt.toNat + 1 ∧ t.eng.evValid = false ∧
      t.eng.evData = s.eng.evData ∧ t.eng.bytecnt = s.eng.bytecnt ∧ t.eng.phase = Phase.bitWaitL) ∧
    (s.eng.bitcnt.toNat = 7 → t.eng.bitcnt = 0#3 ∧ t.eng.evValid = true ∧ t.eng.evData = t.eng.shreg ∧
      (s.eng.bytecnt ≠ 4#3 → t.eng.bytecnt = s.eng.bytecnt + 1#3 ∧ t.eng.phase = Phase.bitWaitL) ∧
      (s.eng.bytecnt = 4#3 → t.eng.bytecnt = 0#3 ∧ t.eng.phase = Phase.idle ∧ lineOe t = true ∧ lineO t = true))

/-- In every operation but RESET, START and a SAMPLE that completes a byte, the event register's bit is cleared; and
only such a SAMPLE sets it or loads `ev_data`. -/
def Obligations.OnlyACompletingSampleEmits : Prop :=
  ∀ (c : BitVec 4) (i : Instr) (s t : State), decodePhase c = .ok i → exec i s = .next t →
    (¬ (i = .sample ∧ s.eng.bitcnt = 7#3) → t.eng.evValid = false ∧ t.eng.evData = s.eng.evData) ∧
    ((i = .sample ∧ s.eng.bitcnt = 7#3) → t.eng.evValid = true ∧ t.eng.evData = t.eng.shreg)

/-- The wire symbols put their level on `line_i` and nothing else (the model's reading of format W, entry 4), and the
SAMPLE that follows shifts that level in. -/
def Obligations.SymbolsAreWhatSampleReads : Prop :=
  ∀ s : State,
    exec .sym0 s = .next { s with env := { s.env with lineI := false } } ∧
    exec .sym1 s = .next { s with env := { s.env with lineI := true } } ∧
    (∀ t, andThen (exec .sym0 s) (exec .sample) = .next t → t.eng.shreg.getLsbD 0 = false) ∧
    (∀ t, andThen (exec .sym1 s) (exec .sample) = .next t → t.eng.shreg.getLsbD 0 = true)

/-! ### Sequences of the engine -/

/-- Eight SAMPLEs deliver a byte most significant bit first: no event before the eighth, and then one that carries the
byte, whatever the shift register held. -/
def Obligations.EightSamplesDeliverAByte : Prop :=
  ∀ (s : State) (b : Byte), s.eng.bitcnt = 0#3 →
    (∃ t, sampleLevels (byteBits b) s = .next t ∧ t.eng.evValid = true ∧ t.eng.evData = b ∧ t.eng.shreg = b ∧
      t.eng.bitcnt = 0#3 ∧ t.asm = s.asm) ∧
    (∀ k, 0 < k → k < 8 → ∃ t, sampleLevels ((byteBits b).take k) s = .next t ∧ t.eng.evValid = false ∧
      t.eng.evData = s.eng.evData ∧ t.eng.bytecnt = s.eng.bytecnt ∧ t.eng.bitcnt.toNat = k)

/-- From the first cycle of the initiation pulse the line is driven low for exactly `N_SETTLE` clock periods, whatever
`line_i` does, and then released. -/
def Obligations.InitiationPulseLasts : Prop :=
  ∀ (s : State) (ls : List Bool) (rest : List Move), s.par.wellFormed = true → s.host.coord = .idle →
    s.env.stimulus = levelMoves ls ++ rest → s.eng.phase = Phase.initLow → s.eng.cyc = 0#4 → s.eng.evValid = false →
    (∀ k, k ≤ ls.length → k < s.par.nSettle → ∃ t, runSteps k s = .next t ∧ t.eng.phase = Phase.initLow ∧
      t.eng.cyc.toNat = k ∧ lineOe t = true ∧ lineO t = false) ∧
    (s.par.nSettle ≤ ls.length → ∃ t, runSteps s.par.nSettle s = .next t ∧ t.eng.phase = Phase.ackWaitH1 ∧
      t.eng.cyc = 0#4 ∧ lineOe t = false ∧ t.asm = s.asm)

/-- What the sample instant discriminates: a high pulse seen high at `m` edges reads 0 when `m ≤ D + 1` and 1 when
`m ≥ D + 2`, SAMPLE executing `D + 1` edges after the detect edge. -/
def Obligations.PulseLengthDecidesTheBit : Prop :=
  ∀ (s : State) (m n : Nat) (rest : List Move), s.par.wellFormed = true → s.host.coord = .idle →
    s.eng.phase = Phase.bitWaitH → s.eng.evValid = false → 1 ≤ m → s.par.nSampleDelay + 2 ≤ m + n →
    s.env.stimulus = Stim.high m ++ Stim.low n ++ rest →
    (∃ u, runSteps (s.par.nSampleDelay + 1) s = .next u ∧ u.eng.phase = Phase.sample ∧ u.eng.shreg = s.eng.shreg) ∧
    (∃ t, runSteps (s.par.nSampleDelay + 2) s = .next t ∧ t.eng.phase ≠ Phase.sample ∧
      t.eng.shreg.toNat = (2 * s.eng.shreg.toNat + (if s.par.nSampleDelay + 2 ≤ m then 1 else 0)) % 256)

/-- A stall is legal and loses nothing: while the line keeps the level that is not awaited, any number of edges leave
the whole block as it is, and the edge that brings the awaited level moves the phase on. -/
def Obligations.StallKeepsTheBlock : Prop :=
  ∀ (s : State) (n : Nat) (l : Bool) (rest : List Move), s.host.coord = .idle → s.eng.evValid = false →
    awaits s.eng.phase = some l →
    s.env.stimulus = levelMoves (List.replicate n (!l)) ++ (.input (lineWord l) :: rest) →
    (∀ k, k ≤ n → ∃ t, runSteps k s = .next t ∧ t.eng = s.eng ∧ t.asm = s.asm ∧ lineOe t = false) ∧
    (∃ t, runSteps (n + 1) s = .next t ∧ t.eng.phase = s.eng.phase + 1#4 ∧ t.eng.bitcnt = s.eng.bitcnt ∧
      t.eng.bytecnt = s.eng.bytecnt ∧ t.eng.shreg = s.eng.shreg ∧ t.asm = s.asm)

/-- `line_i` has no effect at the edges that do not read it: RESET, START, and the phases `P_IDLE`, `P_INIT_LOW`,
`P_SAMPLE_DELAY`. Two runs of the edge that differ in the level alone end alike but for that level. -/
def Obligations.LineIgnoredWhereNotRead : Prop :=
  ∀ (s t : State) (l l' : Bool) (w : BitVec 2) (rest : List Move), s.host.coord ≠ .decoding →
    (w ≠ 0#2 ∨ s.eng.phase = Phase.idle ∨ s.eng.phase = Phase.initLow ∨ s.eng.phase = Phase.sampleDelay) →
    step (withStimulus (.input (w ++ BitVec.ofBool l) :: rest) s) = .next t →
    step (withStimulus (.input (w ++ BitVec.ofBool l') :: rest) s) = .next (withLine l' t)

/-- The line outputs by phase: driven high in `P_IDLE`, driven low in `P_INIT_LOW`, released in every other phase. -/
def Obligations.LineOutputsByPhase : Prop :=
  ∀ s : State,
    (s.eng.phase = Phase.idle → lineOe s = true ∧ lineO s = true) ∧
    (s.eng.phase = Phase.initLow → lineOe s = true ∧ lineO s = false) ∧
    (s.eng.phase ≠ Phase.idle → s.eng.phase ≠ Phase.initLow → lineOe s = false ∧ lineO s = true)

/-- No frame completes early: fewer than `N_SETTLE + 4 + 40 × (N_SAMPLE_DELAY + 3)` steps after a START, whatever the
stimulus, `count` is not 5 (at the defaults 213 edges). -/
def Obligations.NoFrameBeforeTheMinimum : Prop :=
  ∀ (s t u : State) (k : Nat), s.par.wellFormed = true → exec .start s = .next t →
    k < s.par.nSettle + 4 + 40 * (s.par.nSampleDelay + 3) → runSteps k t = .next u → u.asm.count ≠ 5#3

/-- The clean waveform of any frame is read back: from any state with an idle host and the default timing, START, the
initiation, an acknowledgment, the forty symbols of the frame and the tail leave the frame in the buffer, `count = 5`
and the engine idle. -/
def Obligations.CleanWaveformDeliversTheFrame : Prop :=
  ∀ (s : State) (f : Frame) (rest : List Move), s.par.nSettle = 9 → s.par.nSampleDelay = 2 → s.host.coord = .idle →
    s.env.stimulus = Stim.start ++ Stim.init ++ Stim.ack ++ Stim.frame f ++ Stim.tail ++ rest →
    ∃ t, runSteps ((Stim.start ++ Stim.init ++ Stim.ack ++ Stim.frame f ++ Stim.tail).length) s = .next t ∧
      memFrame t.asm.buf = f ∧ t.asm.count = 5#3 ∧ t.eng.phase = Phase.idle ∧ t.eng.evValid = false ∧
      t.eng.evData = f.b4 ∧ t.eng.shreg = f.b4 ∧ t.env.stimulus = rest

/-! ### The Byte Assembler -/

/-- APPEND with an event pending and a cell left: the byte goes to `buf[count]`, `count` grows by one, every other cell
and everything else stay, and the buffer keeps its form. Without an event nothing happens. -/
def Obligations.AppendWritesTheNextCell : Prop :=
  ∀ (s : State) (d : Byte), Memory.wf s.asm.buf = true →
    (s.eng.evValid = true → s.asm.count.toNat ≤ 4 → ∃ t, exec (.append d) s = .next t ∧
      t.asm.count.toNat = s.asm.count.toNat + 1 ∧
      (∀ a, byteAt t.asm.buf a = if a = s.asm.count.toNat then d else byteAt s.asm.buf a) ∧
      Memory.wf t.asm.buf = true ∧ t.eng = s.eng ∧ t.host = s.host ∧ t.env = s.env ∧ t.par = s.par) ∧
    (s.eng.evValid = false → exec (.append d) s = .next s)

/-- APPEND with an event pending and `count` at 5 or more is the overrun, a fault in a model. -/
def Obligations.OverrunIsAFault : Prop :=
  ∀ (s : State) (d : Byte), s.eng.evValid = true → 5 ≤ s.asm.count.toNat → exec (.append d) s = .fault .overrun

/-- The byte completed at one edge is in the buffer, with its count, after the next one. -/
def Obligations.PendingEventIsAppendedAtTheNextEdge : Prop :=
  ∀ (s : State) (l : Bool) (rest : List Move), s.Inv → s.host.coord ≠ .decoding → s.host.coord ≠ .triggering →
    s.eng.evValid = true → s.env.stimulus = .input (lineWord l) :: rest →
    ∃ t, step s = .next t ∧ t.asm.count.toNat = s.asm.count.toNat + 1 ∧
      (∀ a, byteAt t.asm.buf a = if a = s.asm.count.toNat then s.eng.evData else byteAt s.asm.buf a)

/-- Between clears `count` only grows, one at a time; it falls only to 0 with every cell cleared. -/
def Obligations.CountGrowsByOneUntilCleared : Prop :=
  ∀ s t : State, s.Inv → step s = .next t →
    t.asm = s.asm ∨
    (s.eng.evValid = true ∧ t.asm.count.toNat = s.asm.count.toNat + 1 ∧
      (∀ a, byteAt t.asm.buf a = if a = s.asm.count.toNat then s.eng.evData else byteAt s.asm.buf a)) ∨
    (t.asm.count = 0#3 ∧ ∀ a, byteAt t.asm.buf a = 0#8)

/-! ### The Validator and Decoder -/

/-- DECODE has exactly three outcomes, in this order of test, and no other input than `count` and the five bytes. -/
def Obligations.DecodeHasThreeOutcomes : Prop :=
  ∀ (n : BitVec 3) (f : Frame),
    (n ≠ 5#3 → decodeFrame n f = .fail .incompleteFrame) ∧
    (n = 5#3 → (f.b0.toNat + f.b1.toNat + f.b2.toNat + f.b3.toNat) % 256 ≠ f.b4.toNat →
      decodeFrame n f = .fail .checksumMismatch) ∧
    (n = 5#3 → (f.b0.toNat + f.b1.toNat + f.b2.toNat + f.b3.toNat) % 256 = f.b4.toNat →
      ∃ h t, decodeFrame n f = .ok h t)

/-- The decoded humidity is `256·b0 + b1`, unsigned, with no clamp. -/
def Obligations.HumidityIsTheFirstTwoBytes : Prop :=
  ∀ (n : BitVec 3) (f : Frame) (h t : Tenths), decodeFrame n f = .ok h t → h.toNat = 256 * f.b0.toNat + f.b1.toNat

/-- The decoded temperature is the sign-and-magnitude value of `b2`, `b3` in two's complement; -32768 never occurs and
negative zero gives 0. -/
def Obligations.TemperatureIsSignAndMagnitude : Prop :=
  ∀ (n : BitVec 3) (f : Frame) (h t : Tenths), decodeFrame n f = .ok h t →
    (f.b2.toNat < 128 → t.toInt = (256 * f.b2.toNat + f.b3.toNat : Nat)) ∧
    (128 ≤ f.b2.toNat → t.toInt = -((256 * (f.b2.toNat - 128) + f.b3.toNat : Nat) : Int)) ∧
    t ≠ 0x8000#16 ∧ (f.b2 = 0x80#8 → f.b3 = 0x00#8 → t = 0#16)

/-- The result word: `status` in bits 33..32, never 3; on success the two values below it; on failure zeros. -/
def Obligations.ResultWordLayout : Prop :=
  ∀ (n : BitVec 3) (f : Frame),
    (decodeFrame n f).word.extractLsb' 32 2 ≠ 3#2 ∧
    (∀ h t, decodeFrame n f = .ok h t → (decodeFrame n f).word.extractLsb' 32 2 = 0#2 ∧
      (decodeFrame n f).word.extractLsb' 16 16 = h ∧ (decodeFrame n f).word.extractLsb' 0 16 = t) ∧
    (decodeFrame n f = .fail .incompleteFrame → (decodeFrame n f).word.toNat = 1 * 2 ^ 32) ∧
    (decodeFrame n f = .fail .checksumMismatch → (decodeFrame n f).word.toNat = 2 * 2 ^ 32)

/-- Encode, then decode: every pair of tenths in range comes back. Decode, then encode: every valid frame comes back
but those with negative zero, which come back with `b2 = 0` and the checksum lower by 0x80. -/
def Obligations.EncodeDecodeRoundTrip : Prop :=
  (∀ (h : BitVec 16) (t : Int), -32767 ≤ t → t ≤ 32767 →
    ∃ tt, decodeFrame 5#3 (encodeReading h t) = .ok h tt ∧ tt.toInt = t) ∧
  (∀ (f : Frame) (h tt : Tenths), decodeFrame 5#3 f = .ok h tt →
    (¬ (f.b2 = 0x80#8 ∧ f.b3 = 0x00#8) → encodeReading h tt.toInt = f) ∧
    (f.b2 = 0x80#8 ∧ f.b3 = 0x00#8 → encodeReading h tt.toInt = { f with b2 := 0x00#8, b4 := f.b4 - 0x80#8 }))

/-- DECODE as an operation writes nothing but the record of the snapshot (the model's own field, entry 10), which holds
the operands and their outcome; doing it twice changes nothing more. -/
def Obligations.DecodeWritesOnlyTheSnapshot : Prop :=
  ∀ (n : BitVec 3) (f : Frame) (s : State), ∃ t, exec (.decode n f) s = .next t ∧
    t = { s with host := { s.host with snapshot := some ⟨n, f, decodeFrame n f⟩ } } ∧ exec (.decode n f) t = .next t

/-- The observation of the running block sees `count` and the five bytes of one cycle, and moves nothing of the block. -/
def Obligations.ObservationIsASnapshot : Prop :=
  ∀ (s : State) (rest : List Move), s.host.coord ≠ .decoding → s.env.stimulus = .observe :: rest →
    ∃ t, step s = .next t ∧ t.eng = s.eng ∧ t.asm = s.asm ∧ t.host.snapshot = some (resultPort s) ∧
      (resultPort s).count = s.asm.count ∧
      (resultPort s).frame = ⟨byteAt s.asm.buf 0, byteAt s.asm.buf 1, byteAt s.asm.buf 2, byteAt s.asm.buf 3,
        byteAt s.asm.buf 4⟩ ∧
      (resultPort s).result = decodeFrame s.asm.count (resultPort s).frame

/-! ### The host -/

/-- The gating rule, for the three public operations: with the host idle, the call starts an acquisition if and only if
`force`, or no reading yet, or strictly more than the interval elapsed; otherwise it returns the cached fields at once.
Nothing else changes. (That the call then runs over several steps is entry 17.) -/
def Obligations.ReadsAreGated : Prop :=
  ∀ (s : State) (force : Bool), s.host.coord = .idle →
    (mustAcquire force s →
      exec (.readTemperature force) s =
        .next { s with host := { s.host with coord := .triggering, call := some .temperature } } ∧
      exec (.readHumidity force) s =
        .next { s with host := { s.host with coord := .triggering, call := some .humidity } } ∧
      exec (.readBoth force) s =
        .next { s with host := { s.host with coord := .triggering, call := some .both } }) ∧
    (¬ mustAcquire force s → ∃ r, s.host.cache = some r ∧
      exec (.readTemperature force) s =
        .next { s with host := { s.host with answer := some (.temperature (some r.temp)) } } ∧
      exec (.readHumidity force) s =
        .next { s with host := { s.host with answer := some (.humidity (some r.hum)) } } ∧
      exec (.readBoth force) s =
        .next { s with host := { s.host with answer := some (.both (some (r.temp, r.hum))) } })

/-- While a call is in progress there is no second one: the move is refused. -/
def Obligations.OverlappingCallsAreRefused : Prop :=
  ∀ (s : State) (force : Bool), s.host.coord ≠ .idle →
    exec (.readTemperature force) s = .refused .overlappingCall ∧
    exec (.readHumidity force) s = .refused .overlappingCall ∧
    exec (.readBoth force) s = .refused .overlappingCall

/-- A caller's word with `op = 00` is no operation: the move is refused under its name. -/
def Obligations.ReservedCallWordIsRefused : Prop :=
  ∀ (s : State) (a : BitVec 3) (rest : List Move), s.host.coord ≠ .decoding → a.toNat < 2 →
    s.env.stimulus = .call a :: rest → step s = .refused (.reservedApiOp a)

/-- In `Triggering` the next edge (without `rst`) is a START edge, whatever the input word's `start` bit, and the host
moves on with the wait loaded: WAIT_CYCLES edges and the free slack, ending WAIT_MS later (entry 6). -/
def Obligations.TriggeringPulsesStart : Prop :=
  ∀ (s : State) (w : BitVec 3) (rest : List Move), s.host.coord = .triggering → w.getLsbD 2 = false →
    s.env.stimulus = .input w :: rest → 0 < s.par.waitCycles →
    ∃ t, step s = .next t ∧ exec .start s = .next { s with eng := t.eng, asm := t.asm } ∧
      t.host.coord = .waiting ∧ t.host.call = s.host.call ∧ t.host.cache = s.host.cache ∧
      t.host.nowMs = s.host.nowMs ∧ t.host.wakeAt = s.host.nowMs + s.par.waitMs ∧
      s.par.waitCycles ≤ t.host.waitLeft ∧ t.env.stimulus = rest

/-- In `Decoding` the host takes one snapshot and acts on it: a failure is reported and the cache kept; a success
updates the cache as a whole with the present time. It returns to `Idle` regardless of outcome, and the block is not
touched. -/
def Obligations.DecodingActsOnTheSnapshot : Prop :=
  ∀ s : State, s.host.coord = .decoding → ∃ t, step s = .next t ∧
    t.eng = s.eng ∧ t.asm = s.asm ∧ t.env = s.env ∧ t.par = s.par ∧ t.host.coord = .idle ∧ t.host.call = none ∧
    t.host.nowMs = s.host.nowMs ∧
    (∀ f, (resultPort s).result = .fail f → t.host.cache = s.host.cache ∧ t.host.sink = s.host.sink ++ [f]) ∧
    (∀ h tt, (resultPort s).result = .ok h tt →
      t.host.cache = some ⟨tt.toInt, h.toNat, s.host.nowMs⟩ ∧ t.host.sink = s.host.sink) ∧
    (∀ q, s.host.call = some q → t.host.answer = some (answerOf q t.host.cache))

/-- The cache changes in `Decoding` on a complete frame with a passing checksum and at no other time; failed
acquisitions, RESET and every other move leave it. -/
def Obligations.CacheChangesOnlyOnSuccess : Prop :=
  ∀ s t : State, step s = .next t → t.host.cache = s.host.cache ∨
    (s.host.coord = .decoding ∧ s.asm.count = 5#3 ∧ ∃ h tt, (resultPort s).result = .ok h tt ∧
      t.host.cache = some ⟨tt.toInt, h.toNat, s.host.nowMs⟩)

/-- Once a reading is cached no step makes it unavailable again, and a call that returns then returns a value. -/
def Obligations.NeverUnavailableAgain : Prop :=
  ∀ s t : State, s.host.cache.isSome = true → step s = .next t → t.host.cache.isSome = true ∧
    ∀ q, answerOf q t.host.cache ≠ .temperature none ∧ answerOf q t.host.cache ≠ .humidity none ∧
      answerOf q t.host.cache ≠ .both none

/-- The diagnostics sink is append-only, with one entry per failed acquisition, made in `Decoding`. -/
def Obligations.SinkGrowsByFailedAcquisitions : Prop :=
  ∀ s t : State, step s = .next t → t.host.sink = s.host.sink ∨
    (s.host.coord = .decoding ∧ ∃ f, (resultPort s).result = .fail f ∧ t.host.sink = s.host.sink ++ [f])

/-- The host's clock never runs backwards and the parameters never change. -/
def Obligations.ClockMonotoneParametersConstant : Prop :=
  ∀ s t : State, step s = .next t → s.host.nowMs ≤ t.host.nowMs ∧ t.par = s.par

/-- The wait is unconditional: from `Waiting` with `k` edges left, any `k` edges whatever (RESET and START among them)
bring the host to `Decoding`, and no fewer do. -/
def Obligations.WaitEndsUnconditionally : Prop :=
  ∀ (s : State) (ws : List (BitVec 3)) (rest : List Move), s.Inv → s.host.coord = .waiting →
    ws.length = s.host.waitLeft → s.env.stimulus = ws.map Move.input ++ rest →
    (∀ k, k < ws.length → ∃ t, runSteps k s = .next t ∧ t.host.coord = .waiting ∧ t.host.cache = s.host.cache) ∧
    (∃ t, runSteps ws.length s = .next t ∧ t.host.coord = .decoding ∧ t.host.cache = s.host.cache ∧
      t.host.nowMs = max s.host.nowMs s.host.wakeAt ∧ t.env.stimulus = rest)

/-- A read call that must acquire runs to its end whatever the line does: the call, the START edge, the edges of the
wait and the decoding lead back to `Idle`, with the answer taken from the cache as the final snapshot left it. -/
def Obligations.ReadCallRunsToItsEnd : Prop :=
  ∀ (s : State) (a : BitVec 3) (i : Instr) (q : Request) (force : Bool) (ws : List (BitVec 3)) (rest : List Move),
    s.Inv → s.host.coord = .idle → mustAcquire force s → encode i = .api a →
    ((i = .readTemperature force ∧ q = .temperature) ∨ (i = .readHumidity force ∧ q = .humidity) ∨
      (i = .readBoth force ∧ q = .both)) →
    ws.length = 1 + s.par.waitCycles + Config.freeWaitSlack s.env.draws →
    s.env.stimulus = .call a :: (ws.map Move.input ++ rest) →
    ∃ t, runSteps (ws.length + 2) s = .next t ∧ t.host.coord = .idle ∧ t.host.call = none ∧
      t.host.nowMs = s.host.nowMs + s.par.waitMs ∧ t.env.stimulus = rest ∧
      t.host.answer = some (answerOf q t.host.cache) ∧
      (∀ f, (resultPort t).result = .fail f → t.host.cache = s.host.cache ∧ t.host.sink = s.host.sink ++ [f]) ∧
      (∀ h tt, (resultPort t).result = .ok h tt →
        t.host.cache = some ⟨tt.toInt, h.toNat, t.host.nowMs⟩ ∧ t.host.sink = s.host.sink)

/-! ### The whole machine -/

/-- The invariant holds at reset. -/
def Obligations.InvariantAtReset : Prop := State.reset.Inv

/-- Every step keeps the invariant: R38 for every stimulus, the canonical form of the buffer, the host's consistency. -/
def Obligations.StepKeepsTheInvariant : Prop := ∀ s t : State, s.Inv → step s = .next t → t.Inv

/-- In a state that meets the invariant no step faults: the overrun and the reserved phases are unreachable. -/
def Obligations.InvariantExcludesFaults : Prop := ∀ (s : State) (r : Fault), s.Inv → step s ≠ .fault r

/-- Ownership: only RESET, START and APPEND change the buffer and `count`; only RESET, START and the phase operations
change the engine; only DECODE's record and the public operations change the host; only the wire symbols change the
environment's side; nothing changes the parameters. -/
def Obligations.EachAgentWritesItsOwn : Prop :=
  ∀ (i : Instr) (s t : State), exec i s = .next t →
    (t.asm ≠ s.asm → i = .reset ∨ i = .start ∨ ∃ d, i = .append d) ∧
    (t.eng ≠ s.eng → i = .reset ∨ i = .start ∨ ∃ c, decodePhase c = .ok i) ∧
    (t.host ≠ s.host → (∃ n f, i = .decode n f) ∨ ∃ a, decodeApi a = .ok i) ∧
    (t.env ≠ s.env → i = .sym0 ∨ i = .sym1) ∧
    t.env.stimulus = s.env.stimulus ∧ t.par = s.par
end

