-- ==== Sys2Proof/Laws/Memory.lean ====
section
/-! SUPPORT. The laws of the Frame Buffer: read after write, a write leaves every other cell alone, every operation
keeps the canonical form, and buffers in canonical form that read alike are equal. -/

namespace Sys2Proof.Machine

@[simp] theorem byteAt_nil (a : Nat) : byteAt [] a = 0#8 := rfl

@[simp] theorem wf_nil : Memory.wf [] = true := rfl

theorem wfFrom_cons (lo a : Nat) (v : Byte) (m : Memory) :
    wfFrom lo ((a, v) :: m) = true ↔ lo ≤ a ∧ a < bufCells ∧ v ≠ 0#8 ∧ wfFrom (a + 1) m = true := by
  simp [wfFrom, and_assoc]

theorem wfFrom_mono {lo lo' : Nat} {m : Memory} (h : wfFrom lo m = true) (hle : lo' ≤ lo) : wfFrom lo' m = true := by
  cases m with
  | nil => rfl
  | cons c m =>
    obtain ⟨a, v⟩ := c
    rw [wfFrom_cons] at h ⊢
    exact ⟨by omega, h.2⟩

theorem byteAt_below {lo a : Nat} {m : Memory} (h : wfFrom lo m = true) (ha : a < lo) : byteAt m a = 0#8 := by
  induction m generalizing lo with
  | nil => rfl
  | cons c m ih =>
    obtain ⟨x, v⟩ := c
    rw [wfFrom_cons] at h
    have hx : x ≠ a := by omega
    simp only [byteAt, if_neg hx]
    exact ih h.2.2.2 (by omega)

/-- Cells past the last are never listed. -/
theorem byteAt_outside {m : Memory} (h : Memory.wf m = true) {a : Nat} (ha : bufCells ≤ a) : byteAt m a = 0#8 := by
  have key : ∀ (m : Memory) (lo : Nat), wfFrom lo m = true → byteAt m a = 0#8 := by
    intro m
    induction m with
    | nil => intros; rfl
    | cons c m ih =>
      obtain ⟨x, v⟩ := c
      intro lo h
      rw [wfFrom_cons] at h
      have hx : x ≠ a := by omega
      simp only [byteAt, if_neg hx]
      exact ih _ h.2.2.2
  exact key m 0 h

theorem byteAt_putByte {lo : Nat} {m : Memory} (h : wfFrom lo m = true) (a : Nat) (v : Byte) (b : Nat) :
    byteAt (putByte m a v) b = if b = a then v else byteAt m b := by
  induction m generalizing lo with
  | nil =>
    by_cases hv : v = 0#8 <;> by_cases hb : a = b <;> simp [putByte, byteAt, hv, hb, eq_comm (a := b)]
  | cons c m ih =>
    obtain ⟨x, u⟩ := c
    rw [wfFrom_cons] at h
    obtain ⟨-, -, -, hm⟩ := h
    unfold putByte
    split
    · rename_i hlt
      have hz : byteAt m a = 0#8 := byteAt_below hm (by omega)
      split
      · rename_i hv
        by_cases hb : b = a
        · subst hb; simp [byteAt, hz, hv, (show x ≠ b by omega)]
        · simp [hb]
      · by_cases hb : b = a
        · subst hb; simp [byteAt]
        · simp [byteAt, hb, (show ¬ a = b from fun e => hb e.symm)]
    · split
      · rename_i _ heq
        subst heq
        have hz : byteAt m a = 0#8 := byteAt_below hm (by omega)
        split
        · rename_i hv
          by_cases hb : b = a
          · subst hb; simp [hz, hv]
          · simp [byteAt, hb, (show ¬ a = b from fun e => hb e.symm)]
        · by_cases hb : b = a
          · subst hb; simp [byteAt]
          · simp [byteAt, hb, (show ¬ a = b from fun e => hb e.symm)]
      · rename_i hlt hne
        simp only [byteAt]
        rw [ih hm]
        by_cases hb : b = a
        · subst hb; simp [(show ¬ x = b by omega)]
        · simp [hb]

theorem wfFrom_putByte {lo : Nat} {m : Memory} (h : wfFrom lo m = true) {a : Nat} (hlo : lo ≤ a) (ha : a < bufCells)
    (v : Byte) : wfFrom lo (putByte m a v) = true := by
  induction m generalizing lo with
  | nil =>
    unfold putByte
    split
    · rfl
    · rename_i hv; rw [wfFrom_cons]; exact ⟨hlo, ha, hv, rfl⟩
  | cons c m ih =>
    obtain ⟨x, u⟩ := c
    have h' := h
    rw [wfFrom_cons] at h'
    unfold putByte
    split
    · split
      · exact h
      · rename_i hv
        rw [wfFrom_cons]
        refine ⟨hlo, ha, hv, ?_⟩
        rw [wfFrom_cons]
        exact ⟨by omega, h'.2⟩
    · split
      · rename_i _ heq
        subst heq
        split
        · exact wfFrom_mono h'.2.2.2 (by omega)
        · rename_i hv; rw [wfFrom_cons]; exact ⟨hlo, ha, hv, h'.2.2.2⟩
      · rw [wfFrom_cons]
        exact ⟨h'.1, h'.2.1, h'.2.2.1, ih h'.2.2.2 (by omega)⟩

/-- A write keeps the canonical form. -/
theorem wf_memWrite {m m' : Memory} {i : Nat} {v : Byte} (h : Memory.wf m = true) (hw : memWrite m i v = some m') :
    Memory.wf m' = true := by
  unfold memWrite at hw
  split at hw
  · rename_i hi
    cases hw
    exact wfFrom_putByte h (Nat.zero_le _) hi v
  · cases hw

/-- Read after write: the written cell gives the value, every other cell what it gave. -/
theorem byteAt_memWrite {m m' : Memory} {i : Nat} {v : Byte} (h : Memory.wf m = true) (hw : memWrite m i v = some m')
    (a : Nat) : byteAt m' a = if a = i then v else byteAt m a := by
  unfold memWrite at hw
  split at hw
  · cases hw; exact byteAt_putByte h i v a
  · cases hw

/-- A write answers exactly when the index names a cell (R60). -/
theorem memWrite_isSome (m : Memory) (i : Nat) (v : Byte) : (memWrite m i v).isSome = true ↔ i < bufCells := by
  unfold memWrite; split <;> simp_all

theorem wf_memOfFrame (f : Frame) : Memory.wf (memOfFrame f) = true := by
  unfold memOfFrame Memory.wf
  refine wfFrom_putByte (wfFrom_putByte (wfFrom_putByte (wfFrom_putByte (wfFrom_putByte rfl ?_ ?_ _) ?_ ?_ _) ?_ ?_ _)
    ?_ ?_ _) ?_ ?_ _ <;> decide

/-- Writing the five bytes of a frame and reading the buffer gives the frame. -/
theorem memFrame_memOfFrame (f : Frame) : memFrame (memOfFrame f) = f := by
  have h0 : wfFrom 0 (putByte [] 0 f.b0) = true := wfFrom_putByte rfl (by decide) (by decide) _
  have h1 := wfFrom_putByte h0 (a := 1) (by decide) (by decide) f.b1
  have h2 := wfFrom_putByte h1 (a := 2) (by decide) (by decide) f.b2
  have h3 := wfFrom_putByte h2 (a := 3) (by decide) (by decide) f.b3
  obtain ⟨b0, b1, b2, b3, b4⟩ := f
  simp [memFrame, memOfFrame, byteAt_putByte h3, byteAt_putByte h2, byteAt_putByte h1, byteAt_putByte h0,
    byteAt_putByte (lo := 0) (m := []) rfl]

/-- Two buffers in canonical form that read alike everywhere are the same list. -/
theorem memory_ext {lo : Nat} {m m' : Memory} (h : wfFrom lo m = true) (h' : wfFrom lo m' = true)
    (hb : ∀ a, byteAt m a = byteAt m' a) : m = m' := by
  induction m generalizing lo m' with
  | nil =>
    cases m' with
    | nil => rfl
    | cons c m' =>
      obtain ⟨x, v⟩ := c
      rw [wfFrom_cons] at h'
      have := hb x
      simp [byteAt] at this
      exact absurd this.symm h'.2.2.1
  | cons c m ih =>
    obtain ⟨x, v⟩ := c
    rw [wfFrom_cons] at h
    cases m' with
    | nil =>
      have := hb x
      simp [byteAt] at this
      exact absurd this h.2.2.1
    | cons c' m' =>
      obtain ⟨y, u⟩ := c'
      rw [wfFrom_cons] at h'
      have hxy : x = y := by
        rcases Nat.lt_trichotomy x y with hlt | heq | hgt
        · have := hb x
          simp [byteAt, (show y ≠ x by omega), byteAt_below h'.2.2.2 (show x < y + 1 by omega)] at this
          exact absurd this h.2.2.1
        · exact heq
        · have := hb y
          simp [byteAt, (show x ≠ y by omega), byteAt_below h.2.2.2 (show y < x + 1 by omega)] at this
          exact absurd this.symm h'.2.2.1
      subst hxy
      have hv : v = u := by simpa [byteAt] using hb x
      subst hv
      congr 1
      refine ih h.2.2.2 h'.2.2.2 (fun a => ?_)
      by_cases ha : a = x
      · subst ha; rw [byteAt_below h.2.2.2 (by omega), byteAt_below h'.2.2.2 (by omega)]
      · have := hb a
        simpa [byteAt, (show x ≠ a from fun e => ha e.symm)] using this

end Sys2Proof.Machine
end

