-- ==== Sys2Proof/Laws/State.lean ====
section
/-! SUPPORT. One lemma per part of the state per update, and per register per engine update: true by rfl, so that no
proof unfolds a record update. -/

namespace Sys2Proof.Machine

@[simp] theorem State.withEng_eng (s : State) (e : Engine) : (s.withEng e).eng = e := rfl
@[simp] theorem State.withEng_asm (s : State) (e : Engine) : (s.withEng e).asm = s.asm := rfl
@[simp] theorem State.withEng_host (s : State) (e : Engine) : (s.withEng e).host = s.host := rfl
@[simp] theorem State.withEng_env (s : State) (e : Engine) : (s.withEng e).env = s.env := rfl
@[simp] theorem State.withEng_par (s : State) (e : Engine) : (s.withEng e).par = s.par := rfl
@[simp] theorem State.withEng_withEng (s : State) (e e2 : Engine) : (s.withEng e).withEng e2 = s.withEng e2 := rfl
@[simp] theorem State.withEng_self (s : State) : s.withEng s.eng = s := rfl

@[simp] theorem State.withAsm_eng (s : State) (a : Assembler) : (s.withAsm a).eng = s.eng := rfl
@[simp] theorem State.withAsm_asm (s : State) (a : Assembler) : (s.withAsm a).asm = a := rfl
@[simp] theorem State.withAsm_host (s : State) (a : Assembler) : (s.withAsm a).host = s.host := rfl
@[simp] theorem State.withAsm_env (s : State) (a : Assembler) : (s.withAsm a).env = s.env := rfl
@[simp] theorem State.withAsm_par (s : State) (a : Assembler) : (s.withAsm a).par = s.par := rfl
@[simp] theorem State.withAsm_withAsm (s : State) (a a2 : Assembler) : (s.withAsm a).withAsm a2 = s.withAsm a2 := rfl
@[simp] theorem State.withAsm_self (s : State) : s.withAsm s.asm = s := rfl

@[simp] theorem State.withHost_eng (s : State) (h : Coordinator) : (s.withHost h).eng = s.eng := rfl
@[simp] theorem State.withHost_asm (s : State) (h : Coordinator) : (s.withHost h).asm = s.asm := rfl
@[simp] theorem State.withHost_host (s : State) (h : Coordinator) : (s.withHost h).host = h := rfl
@[simp] theorem State.withHost_env (s : State) (h : Coordinator) : (s.withHost h).env = s.env := rfl
@[simp] theorem State.withHost_par (s : State) (h : Coordinator) : (s.withHost h).par = s.par := rfl
@[simp] theorem State.withHost_withHost (s : State) (h h2 : Coordinator) : (s.withHost h).withHost h2 = s.withHost h2 := rfl
@[simp] theorem State.withHost_self (s : State) : s.withHost s.host = s := rfl

@[simp] theorem State.withEnv_eng (s : State) (v : Env) : (s.withEnv v).eng = s.eng := rfl
@[simp] theorem State.withEnv_asm (s : State) (v : Env) : (s.withEnv v).asm = s.asm := rfl
@[simp] theorem State.withEnv_host (s : State) (v : Env) : (s.withEnv v).host = s.host := rfl
@[simp] theorem State.withEnv_env (s : State) (v : Env) : (s.withEnv v).env = v := rfl
@[simp] theorem State.withEnv_par (s : State) (v : Env) : (s.withEnv v).par = s.par := rfl
@[simp] theorem State.withEnv_withEnv (s : State) (v v2 : Env) : (s.withEnv v).withEnv v2 = s.withEnv v2 := rfl
@[simp] theorem State.withEnv_self (s : State) : s.withEnv s.env = s := rfl

@[simp] theorem Engine.noEvent_phase (e : Engine) : e.noEvent.phase = e.phase := rfl
@[simp] theorem Engine.noEvent_cyc (e : Engine) : e.noEvent.cyc = e.cyc := rfl
@[simp] theorem Engine.noEvent_bitcnt (e : Engine) : e.noEvent.bitcnt = e.bitcnt := rfl
@[simp] theorem Engine.noEvent_bytecnt (e : Engine) : e.noEvent.bytecnt = e.bytecnt := rfl
@[simp] theorem Engine.noEvent_shreg (e : Engine) : e.noEvent.shreg = e.shreg := rfl
@[simp] theorem Engine.noEvent_evValid (e : Engine) : e.noEvent.evValid = false := rfl
@[simp] theorem Engine.noEvent_evData (e : Engine) : e.noEvent.evData = e.evData := rfl
@[simp] theorem Engine.emit_phase (e : Engine) (v : Byte) : (e.emit v).phase = e.phase := rfl
@[simp] theorem Engine.emit_cyc (e : Engine) (v : Byte) : (e.emit v).cyc = e.cyc := rfl
@[simp] theorem Engine.emit_bitcnt (e : Engine) (v : Byte) : (e.emit v).bitcnt = e.bitcnt := rfl
@[simp] theorem Engine.emit_bytecnt (e : Engine) (v : Byte) : (e.emit v).bytecnt = e.bytecnt := rfl
@[simp] theorem Engine.emit_shreg (e : Engine) (v : Byte) : (e.emit v).shreg = e.shreg := rfl
@[simp] theorem Engine.emit_evValid (e : Engine) (v : Byte) : (e.emit v).evValid = true := rfl
@[simp] theorem Engine.emit_evData (e : Engine) (v : Byte) : (e.emit v).evData = v := rfl

@[simp] theorem clearFrame_eng (s : State) : (clearFrame s).eng = s.eng := rfl
@[simp] theorem clearFrame_asm (s : State) : (clearFrame s).asm = Assembler.cleared := rfl
@[simp] theorem clearFrame_host (s : State) : (clearFrame s).host = s.host := rfl
@[simp] theorem clearFrame_env (s : State) : (clearFrame s).env = s.env := rfl
@[simp] theorem clearFrame_par (s : State) : (clearFrame s).par = s.par := rfl

end Sys2Proof.Machine
end

