-- ==== Sys2Proof/Laws/Ops.lean ====
section
/-! SUPPORT. One lemma per shared operation that says once what it can do. -/

namespace Sys2Proof.Machine

theorem andThen_eq_next {o : Host.Outcome State Fault Refusal} {f : State → Host.Outcome State Fault Refusal} {t : State} :
    andThen o f = .next t ↔ ∃ u, o = .next u ∧ f u = .next t := by
  cases o <;> simp [andThen]

@[simp] theorem andThen_next (s : State) (f : State → Host.Outcome State Fault Refusal) :
    andThen (.next s) f = f s := rfl

/-- A wait that sees the awaited level moves the phase on. -/
theorem waitLevel_seen {want : Bool} {s : State} (target : BitVec 4) (h : s.env.lineI = want) :
    waitLevel want target s = s.withEng { s.eng.noEvent with phase := target } := by
  simp [waitLevel, h]

/-- A wait that does not see it changes nothing but the event bit. -/
theorem waitLevel_unseen {want : Bool} {s : State} (target : BitVec 4) (h : s.env.lineI ≠ want) :
    waitLevel want target s = s.withEng s.eng.noEvent := by
  simp [waitLevel, h]

theorem countEdges_last {n : Nat} {s : State} (target : BitVec 4) (h : s.eng.cyc.toNat + 1 = n) :
    countEdges n target s = s.withEng { s.eng.noEvent with phase := target, cyc := 0#4 } := by
  simp [countEdges, h]

theorem countEdges_inside {n : Nat} {s : State} (target : BitVec 4) (h : s.eng.cyc.toNat + 1 ≠ n) :
    countEdges n target s = s.withEng { s.eng.noEvent with cyc := s.eng.cyc + 1#4 } := by
  simp [countEdges, h]

theorem waitLevel_withEng (want : Bool) (target : BitVec 4) (s : State) :
    waitLevel want target s = s.withEng (waitLevel want target s).eng := rfl

theorem countEdges_withEng (n : Nat) (target : BitVec 4) (s : State) :
    countEdges n target s = s.withEng (countEdges n target s).eng := rfl

/-- What a public call can answer: the cached value at once, the start of an acquisition, or no such move. -/
theorem beginRead_cases (q : Request) (force : Bool) (s : State) :
    (s.host.coord = .idle ∧ needAcquire force s.host s.par = true ∧
      beginRead q force s = .next (s.withHost { s.host with coord := .triggering, call := some q })) ∨
    (s.host.coord = .idle ∧ needAcquire force s.host s.par = false ∧
      beginRead q force s = .next (s.withHost { s.host with answer := some (answerOf q s.host.cache) })) ∨
    (s.host.coord ≠ .idle ∧ beginRead q force s = .refused .overlappingCall) := by
  unfold beginRead
  cases s.host.coord <;> cases needAcquire force s.host s.par <;> simp

/-- The gating condition in integers, as R172 writes it. -/
theorem needAcquire_iff (force : Bool) (h : Coordinator) (p : Params) :
    needAcquire force h p = true ↔
      force = true ∨ h.cache = none ∨ ∃ r, h.cache = some r ∧ (h.nowMs : Int) - r.ts > p.minIntervalMs := by
  unfold needAcquire
  cases hc : h.cache with
  | none => simp
  | some r => cases force <;> simp <;> omega

theorem settleWait_zero {h : Coordinator} (hz : h.waitLeft = 0) :
    settleWait h = { h with coord := .decoding, nowMs := max h.nowMs h.wakeAt } := by simp [settleWait, hz]

theorem settleWait_pos {h : Coordinator} (hz : h.waitLeft ≠ 0) : settleWait h = h := by simp [settleWait, hz]

@[simp] theorem settleWait_call (h : Coordinator) : (settleWait h).call = h.call := by unfold settleWait; split <;> rfl
@[simp] theorem settleWait_cache (h : Coordinator) : (settleWait h).cache = h.cache := by unfold settleWait; split <;> rfl
@[simp] theorem settleWait_sink (h : Coordinator) : (settleWait h).sink = h.sink := by unfold settleWait; split <;> rfl
@[simp] theorem settleWait_answer (h : Coordinator) : (settleWait h).answer = h.answer := by
  unfold settleWait; split <;> rfl
@[simp] theorem settleWait_snapshot (h : Coordinator) : (settleWait h).snapshot = h.snapshot := by
  unfold settleWait; split <;> rfl
theorem settleWait_nowMs_le (h : Coordinator) : h.nowMs ≤ (settleWait h).nowMs := by
  unfold settleWait; split <;> simp

@[simp] theorem hostEdge_eng (s : State) : (hostEdge s).eng = s.eng := by unfold hostEdge; split <;> rfl
@[simp] theorem hostEdge_asm (s : State) : (hostEdge s).asm = s.asm := by unfold hostEdge; split <;> rfl
@[simp] theorem hostEdge_par (s : State) : (hostEdge s).par = s.par := by unfold hostEdge; split <;> rfl
@[simp] theorem hostEdge_stimulus (s : State) : (hostEdge s).env.stimulus = s.env.stimulus := by
  unfold hostEdge; split <;> rfl
@[simp] theorem hostEdge_lineI (s : State) : (hostEdge s).env.lineI = s.env.lineI := by unfold hostEdge; split <;> rfl
@[simp] theorem hostEdge_call (s : State) : (hostEdge s).host.call = s.host.call := by
  unfold hostEdge; split <;> simp [beginWait]
@[simp] theorem hostEdge_cache (s : State) : (hostEdge s).host.cache = s.host.cache := by
  unfold hostEdge; split <;> simp [beginWait]
@[simp] theorem hostEdge_sink (s : State) : (hostEdge s).host.sink = s.host.sink := by
  unfold hostEdge; split <;> simp [beginWait]
@[simp] theorem hostEdge_answer (s : State) : (hostEdge s).host.answer = s.host.answer := by
  unfold hostEdge; split <;> simp [beginWait]
@[simp] theorem hostEdge_snapshot (s : State) : (hostEdge s).host.snapshot = s.host.snapshot := by
  unfold hostEdge; split <;> simp [beginWait]

/-- An edge never sets the host's clock back. -/
theorem hostEdge_nowMs_le (s : State) : s.host.nowMs ≤ (hostEdge s).host.nowMs := by
  unfold hostEdge
  split
  · exact settleWait_nowMs_le { s.host with
      coord := .waiting, waitLeft := s.par.waitCycles + Config.freeWaitSlack s.env.draws,
      wakeAt := s.host.nowMs + s.par.waitMs }
  · exact settleWait_nowMs_le { s.host with waitLeft := s.host.waitLeft - 1 }
  · exact Nat.le_refl _
  · exact Nat.le_refl _

theorem hostEdge_of_idle {s : State} (h : s.host.coord = .idle) : hostEdge s = s := by simp [hostEdge, h]

/-- The return leaves everything of the host but `coord`, `call` and `answer`. -/
@[simp] theorem returnToCaller_coord (h : Coordinator) : (returnToCaller h).coord = .idle := by
  unfold returnToCaller; split <;> rfl
@[simp] theorem returnToCaller_call (h : Coordinator) : (returnToCaller h).call = none := by
  unfold returnToCaller; split <;> simp_all
@[simp] theorem returnToCaller_cache (h : Coordinator) : (returnToCaller h).cache = h.cache := by
  unfold returnToCaller; split <;> rfl
@[simp] theorem returnToCaller_sink (h : Coordinator) : (returnToCaller h).sink = h.sink := by
  unfold returnToCaller; split <;> rfl
@[simp] theorem returnToCaller_nowMs (h : Coordinator) : (returnToCaller h).nowMs = h.nowMs := by
  unfold returnToCaller; split <;> rfl
@[simp] theorem returnToCaller_snapshot (h : Coordinator) : (returnToCaller h).snapshot = h.snapshot := by
  unfold returnToCaller; split <;> rfl

@[simp] theorem actOn_call (r : Result) (h : Coordinator) : (actOn r h).call = h.call := by cases r <;> rfl
@[simp] theorem actOn_nowMs (r : Result) (h : Coordinator) : (actOn r h).nowMs = h.nowMs := by cases r <;> rfl
@[simp] theorem actOn_snapshot (r : Result) (h : Coordinator) : (actOn r h).snapshot = h.snapshot := by cases r <;> rfl

@[simp] theorem finishAcquire_eng (s : State) : (finishAcquire s).eng = s.eng := rfl
@[simp] theorem finishAcquire_asm (s : State) : (finishAcquire s).asm = s.asm := rfl
@[simp] theorem finishAcquire_env (s : State) : (finishAcquire s).env = s.env := rfl
@[simp] theorem finishAcquire_par (s : State) : (finishAcquire s).par = s.par := rfl

/-- What APPEND can answer when it goes on with an event pending: the index named a cell, which took the byte (R140). -/
theorem execAppend_next {s t : State} {d : Byte} (hwf : Memory.wf s.asm.buf = true) (hv : s.eng.evValid = true)
    (h : execAppend d s = .next t) :
    s.asm.count.toNat < bufCells ∧ t.asm.count.toNat = s.asm.count.toNat + 1 ∧
      (∀ a, byteAt t.asm.buf a = if a = s.asm.count.toNat then d else byteAt s.asm.buf a) ∧
      Memory.wf t.asm.buf = true ∧ t.eng = s.eng ∧ t.host = s.host ∧ t.env = s.env ∧ t.par = s.par := by
  simp only [execAppend, hv, if_true] at h
  split at h
  · rename_i m hm
    cases h
    have h5 : s.asm.count.toNat < 5 := (memWrite_isSome _ _ d).mp (by rw [hm]; rfl)
    refine ⟨h5, ?_, byteAt_memWrite hwf hm, wf_memWrite hwf hm, rfl, rfl, rfl, rfl⟩
    simp only [State.withAsm_asm, BitVec.toNat_add]
    simp
    omega
  · cases h

/-- Values come out of DECODE only from a complete frame with a passing checksum (R151, R152). -/
theorem decodeFrame_ok {n : BitVec 3} {f : Frame} {h t : Tenths} (hd : decodeFrame n f = .ok h t) :
    n = 5#3 ∧ checksumSum f % 256 = f.b4.toNat ∧ h = rawHumidity f ∧ t = signedTenths f := by
  unfold decodeFrame at hd
  split at hd
  · split at hd
    · rename_i h1 h2
      cases hd
      exact ⟨by simpa [complete] using h1, by simpa [checksumOk] using h2, rfl, rfl⟩
    · cases hd
  · cases hd

/-- The two bytes of the magnitude in numbers (R157). -/
theorem rawMagnitude_toNat (f : Frame) : (rawMagnitude f).toNat = 256 * (f.b2.toNat % 128) + f.b3.toNat := by
  unfold rawMagnitude
  rw [BitVec.toNat_append, ← Nat.shiftLeft_add_eq_or_of_lt f.b3.isLt, Nat.shiftLeft_eq, BitVec.extractLsb'_toNat]
  simp
  omega

/-- The sign bit in numbers (R154). -/
theorem signBit_eq (f : Frame) : signBit f = decide (128 ≤ f.b2.toNat) := by
  have key : ∀ b : Byte, b.getLsbD 7 = decide (128 ≤ b.toNat) := by decide
  exact key f.b2

/-- What a public call leaves alone: the block, the environment, the parameters, the cache, the sink and the clock. -/
theorem beginRead_frame {q : Request} {force : Bool} {s t : State} (h : beginRead q force s = .next t) :
    t.eng = s.eng ∧ t.asm = s.asm ∧ t.env = s.env ∧ t.par = s.par ∧ t.host.cache = s.host.cache ∧
      t.host.sink = s.host.sink ∧ t.host.nowMs = s.host.nowMs := by
  rcases beginRead_cases q force s with h' | h' | h'
  · rw [h'.2.2] at h; cases h; simp
  · rw [h'.2.2] at h; cases h; simp
  · rw [h'.2] at h; cases h

end Sys2Proof.Machine
end

