-- ==== Sys2Proof/Laws/PerInstr.lean ====
section
/-! SUPPORT. Facts about every operation as syntax, one lemma per constructor. -/

/-- The word of an operation belongs to the operation's own row of the opcode table, and has the row's width. -/
def Sys2Proof.Laws.Table.Statement (i : Sys2Proof.Instr) : Prop :=
  (Sys2Proof.rowOf i).matches (Sys2Proof.encode i) = true ∧
    (Sys2Proof.encode i).toNat < 2 ^ (Sys2Proof.rowOf i).width

namespace Sys2Proof.Laws.Table

theorem reset : Statement .reset := ⟨by decide, by decide⟩
theorem start : Statement .start := ⟨by decide, by decide⟩
theorem idle : Statement .idle := ⟨by decide, by decide⟩
theorem initLow : Statement .initLow := ⟨by decide, by decide⟩
theorem ackWaitH1 : Statement .ackWaitH1 := ⟨by decide, by decide⟩
theorem ackWaitL : Statement .ackWaitL := ⟨by decide, by decide⟩
theorem ackWaitH2 : Statement .ackWaitH2 := ⟨by decide, by decide⟩
theorem bitWaitL : Statement .bitWaitL := ⟨by decide, by decide⟩
theorem bitWaitH : Statement .bitWaitH := ⟨by decide, by decide⟩
theorem sampleDelay : Statement .sampleDelay := ⟨by decide, by decide⟩
theorem sample : Statement .sample := ⟨by decide, by decide⟩
theorem append (d : Byte) : Statement (.append d) :=
  ⟨by simp [rowOf, encode, Row.matches, OpWord.format], d.isLt⟩
theorem decode (n : BitVec 3) (f : Frame) : Statement (.decode n f) :=
  ⟨by simp [rowOf, encode, Row.matches, OpWord.format], (frameWord n f).isLt⟩
theorem readTemperature (force : Bool) : Statement (.readTemperature force) := by cases force <;> exact ⟨by decide, by decide⟩
theorem readHumidity (force : Bool) : Statement (.readHumidity force) := by cases force <;> exact ⟨by decide, by decide⟩
theorem readBoth (force : Bool) : Statement (.readBoth force) := by cases force <;> exact ⟨by decide, by decide⟩
theorem sym0 : Statement .sym0 := ⟨by decide, by decide⟩
theorem sym1 : Statement .sym1 := ⟨by decide, by decide⟩

end Sys2Proof.Laws.Table
end

