-- ==== Sys2Proof/Laws/Step.lean ====
section
/-! SUPPORT. What a step can do, said once: the cases of a phase operation, of a clock edge and of a step. Every
invariant of the machine is a case analysis over these. -/

namespace Sys2Proof.Machine

/-- Every operation the phase register selects answers a next state that differs in the engine only. -/
theorem exec_phase {c : BitVec 4} {i : Instr} (hd : decodePhase c = .ok i) (s : State) :
    ∃ e, exec i s = .next (s.withEng e) := by
  unfold decodePhase at hd
  split at hd <;> cases hd <;> exact ⟨_, rfl⟩

/-- The edge of a word without command: no phase operation on a reserved code, otherwise the operation alone or beside
APPEND. -/
theorem phaseEdge_cases {s t : State} (h : phaseEdge s = .next t) :
    ∃ i, decodePhase s.eng.phase = .ok i ∧
      ((s.eng.evValid = false ∧ exec i s = .next t) ∨
       (s.eng.evValid = true ∧ ∃ u, exec (.append s.eng.evData) s = .next u ∧ exec i u = .next t)) := by
  unfold phaseEdge at h
  split at h
  · rename_i i hi
    refine ⟨i, hi, ?_⟩
    split at h
    · rename_i hv
      exact .inr ⟨hv, andThen_eq_next.mp h⟩
    · rename_i hv
      exact .inl ⟨by simpa using hv, h⟩
  · cases h

/-- The block's part of an edge: RESET, START, or an edge without command. -/
theorem blockEdge_cases {w : BitVec 3} {s t : State} (h : blockEdge w s = .next t) :
    (w.getLsbD 2 = true ∧ exec .reset s = .next t) ∨
    (w.getLsbD 2 = false ∧ w.getLsbD 1 = true ∧ exec .start s = .next t) ∨
    (w.getLsbD 2 = false ∧ w.getLsbD 1 = false ∧ phaseEdge s = .next t) := by
  unfold blockEdge decodeInput at h
  cases h2 : w.getLsbD 2 <;> cases h1 : w.getLsbD 1 <;> simp_all

/-- The host raises `start` in `Triggering` and nowhere else. -/
theorem portWord_triggering (w : BitVec 3) {s : State} (h : s.host.coord = .triggering) :
    portWord w s = w ||| 0b010#3 := by simp [portWord, h]

theorem portWord_otherwise (w : BitVec 3) {s : State} (h : s.host.coord ≠ .triggering) : portWord w s = w := by
  unfold portWord; split <;> simp_all

theorem clockEdge_cases {w : BitVec 3} {s t : State} (h : clockEdge w s = .next t) :
    ∃ u, blockEdge (portWord w s) (s.withEnv { s.env with lineI := w.getLsbD 0 }) = .next u ∧ t = hostEdge u := by
  obtain ⟨u, hu, ht⟩ := andThen_eq_next.mp h
  exact ⟨u, hu, by cases ht; rfl⟩

/-- A step is the host's own move, a clock edge (from a state that differs in time and environment only), or one of the
moves without an edge. -/
theorem step_cases {s t : State} (h : step s = .next t) :
    (s.host.coord = .decoding ∧ t = finishAcquire s) ∨
    (s.host.coord ≠ .decoding ∧ ∃ w v ms,
      clockEdge w ((s.withHost { s.host with nowMs := s.host.nowMs + ms }).withEnv v) = .next t) ∨
    (s.host.coord ≠ .decoding ∧ ∃ v l, exec (decodeWire l) (s.withEnv v) = .next t) ∨
    (s.host.coord ≠ .decoding ∧ ∃ v a i, decodeApi a = .ok i ∧ exec i (s.withEnv v) = .next t) ∨
    (s.host.coord ≠ .decoding ∧ ∃ v, exec (.decode s.asm.count (memFrame s.asm.buf)) (s.withEnv v) = .next t) ∨
    (s.host.coord ≠ .decoding ∧ ∃ v ms, t = (s.withEnv v).withHost { s.host with nowMs := s.host.nowMs + ms }) := by
  unfold step nextMove at h
  split at h
  · rename_i hc; cases h; exact .inl ⟨hc, rfl⟩
  · rename_i hc
    right
    split at h
    · exact .inl ⟨hc, _, _, _, h⟩
    · rename_i m rest hm
      cases m with
      | input w => exact .inl ⟨hc, w, _, 0, h⟩
      | edge => exact .inl ⟨hc, _, _, 0, h⟩
      | wire l => exact .inr (.inl ⟨hc, _, l, h⟩)
      | call a =>
        unfold playMove apiCall at h
        dsimp only at h
        split at h
        · rename_i i hi; exact .inr (.inr (.inl ⟨hc, _, a, i, hi, h⟩))
        · cases h
      | observe => exact .inr (.inr (.inr (.inl ⟨hc, _, h⟩)))
      | elapse ms => cases h; exact .inr (.inr (.inr (.inr ⟨hc, _, ms, rfl⟩)))

/-- An operation a caller's word encodes is one of the three public operations, whatever its force bit. -/
theorem decodeApi_read {a : BitVec 3} {i : Instr} (h : decodeApi a = .ok i) (s : State) :
    ∃ q force, exec i s = beginRead q force s := by
  unfold decodeApi at h
  split at h <;> cases h <;> exact ⟨_, _, rfl⟩

/-- The shift of R121 in numbers. -/
theorem shiftIn_toNat (sh : Byte) (l : Bool) : (shiftIn sh l).toNat = (2 * sh.toNat + l.toNat) % 256 := by
  revert sh l; decide

/-- Runs compose. -/
theorem runSteps_add (m n : Nat) (s : State) : runSteps (m + n) s = andThen (runSteps m s) (runSteps n) := by
  induction m generalizing s with
  | zero => simp [runSteps]
  | succ m ih =>
    rw [Nat.succ_add]
    show andThen (step s) (runSteps (m + n)) = andThen (andThen (step s) (runSteps m)) (runSteps n)
    cases step s with
    | next t => simp [ih]
    | fault r => rfl
    | refused r => rfl

/-- One more step at the end of a run. -/
theorem runSteps_snoc {k : Nat} {s t u : State} (h : runSteps k s = .next t) (h' : step t = .next u) :
    runSteps (k + 1) s = .next u := by
  rw [runSteps_add k 1, h]
  simp [runSteps, h', andThen]

/-- The legal phase codes one by one (R21). -/
theorem phase_cases {c : BitVec 4} (h : c.toNat ≤ 8) :
    c = 0#4 ∨ c = 1#4 ∨ c = 2#4 ∨ c = 3#4 ∨ c = 4#4 ∨ c = 5#4 ∨ c = 6#4 ∨ c = 7#4 ∨ c = 8#4 := by
  revert c; decide

/-- The block's part of an edge leaves the host, the environment's side and the parameters alone (R20, R210). -/
theorem blockEdge_frame {w : BitVec 3} {s t : State} (h : blockEdge w s = .next t) :
    t.host = s.host ∧ t.env = s.env ∧ t.par = s.par := by
  rcases blockEdge_cases h with ⟨_, h⟩ | ⟨_, _, h⟩ | ⟨_, _, h⟩
  · cases h; exact ⟨rfl, rfl, rfl⟩
  · cases h; exact ⟨rfl, rfl, rfl⟩
  · obtain ⟨i, hi, ⟨_, h⟩ | ⟨hv, u, hu, h⟩⟩ := phaseEdge_cases h
    · obtain ⟨e, he⟩ := exec_phase hi s
      rw [he] at h; cases h; exact ⟨rfl, rfl, rfl⟩
    · obtain ⟨e, he⟩ := exec_phase hi u
      rw [he] at h; cases h
      simp only [exec, execAppend, hv, if_true] at hu
      split at hu
      · cases hu; exact ⟨rfl, rfl, rfl⟩
      · cases hu

/-- An edge without command while the host is idle is the block's edge alone, the level on `line_i` first. -/
theorem step_of_idle {s : State} {l : Bool} {rest : List Move} (hc : s.host.coord = .idle)
    (hs : s.env.stimulus = .input (lineWord l) :: rest) : step s = phaseEdge (withLine l (withStimulus rest s)) := by
  have h0 : (lineWord l).getLsbD 0 = l := by cases l <;> decide
  have hb : ∀ u, blockEdge (lineWord l) u = phaseEdge u := by
    intro u; cases l <;> rfl
  have hstep : step s = andThen (phaseEdge (withLine l (withStimulus rest s))) (fun t => .next (hostEdge t)) := by
    simp only [step, nextMove, hc, reduceCtorEq, if_false, hs, playMove, clockEdge]
    rw [portWord_otherwise _ (by simp [hc]), hb, h0]
    rfl
  rw [hstep]
  cases ht : phaseEdge (withLine l (withStimulus rest s)) with
  | next t =>
    have hf := (blockEdge_frame (w := lineWord l) ((hb _).trans ht)).1
    rw [andThen_next, hostEdge_of_idle (by rw [hf]; exact hc)]
  | fault r => rfl
  | refused r => rfl

end Sys2Proof.Machine
end

