-- ==== Sys2Proof/Tests/Slice0.lean ====
section
/-! SUPPORT. Tests: ill-formed terms the checks refuse, words written out from 30_encoding, vectors of 95_test_vectors
(each named in its comment), and one witness for the hypotheses of every statement that has any. -/

namespace Sys2Proof.Tests

open Sys2Proof Sys2Proof.Machine

/-! ### Helpers -/

/-- The next state of an outcome. -/
def after : Host.Outcome State Fault Refusal → Option State
  | .next s => some s
  | .fault _ => none
  | .refused _ => none

/-- The fault of an outcome. -/
def faultOf : Host.Outcome State Fault Refusal → Option Fault
  | .fault r => some r
  | _ => none

/-- The refusal of an outcome. -/
def refusalOf : Host.Outcome State Fault Refusal → Option Refusal
  | .refused r => some r
  | _ => none

/-- The reset state with another engine. -/
def withEngine (e : Engine) : State := { State.reset with eng := e }

/-- All registers zero but the phase (the start states of section 2.2 of the vectors). -/
def atPhase (c : BitVec 4) : Engine := { Engine.reset with phase := c }

/-- The reset state with an event pending, `count = n` and this buffer. -/
def pending (d : Byte) (n : BitVec 3) (m : Memory) : State :=
  { State.reset with eng := Engine.reset.emit d, asm := { buf := m, count := n } }

/-- The reset state with the moves given still to come. -/
def playing (ms : List Move) : State := withStimulus ms State.reset

/-- The host idle with a reading cached at 1000 ms and its clock at `now` (the start of V-H1, V-H2). -/
def cached (now : Nat) : State :=
  { State.reset with host := { Coordinator.constructed with cache := some ⟨273, 652, 1000⟩, nowMs := now } }

/-- The host in a given control state, a READ_BOTH in progress. -/
def hostIn (c : Coord) : State :=
  { State.reset with host := { Coordinator.constructed with coord := c, call := some .both } }

/-- The frame of the positive case of the source (S2, V-D1). -/
def frameS2 : Frame := ⟨0x02#8, 0x8C#8, 0x01#8, 0x11#8, 0xA0#8⟩

/-- `phase`, `cyc`, `ev_valid` after an operation. -/
def phaseOf (o : Host.Outcome State Fault Refusal) : Option (BitVec 4 × BitVec 4 × Bool) :=
  (after o).map (fun t => (t.eng.phase, t.eng.cyc, t.eng.evValid))

/-! ### Ill-formed terms -/

theorem test_illformed_phase : (OpWord.phase 9#4).wellFormed = false ∧ (OpWord.phase 15#4).wellFormed = false ∧
    (OpWord.phase 8#4).wellFormed = true := by decide
theorem test_illformed_api : (OpWord.api 0b000#3).wellFormed = false ∧ (OpWord.api 0b001#3).wellFormed = false ∧
    (OpWord.api 0b010#3).wellFormed = true := by decide
theorem test_illformed_call : (Move.call 0b001#3).wellFormed = false ∧ (Move.call 0b111#3).wellFormed = true := by decide
theorem test_illformed_settle : ({ Params.default with nSettle := 0 }).wellFormed = false ∧
    ({ Params.default with nSettle := 17 }).wellFormed = false ∧
    ({ Params.default with nSettle := 16 }).wellFormed = true := by decide
theorem test_illformed_delay : ({ Params.default with nSampleDelay := 0 }).wellFormed = false ∧
    ({ Params.default with nSampleDelay := 17 }).wellFormed = false ∧
    ({ Params.default with nSampleDelay := 1 }).wellFormed = true := by decide
theorem test_illformed_memory : Memory.wf [(0, 0#8)] = false ∧ Memory.wf [(5, 1#8)] = false ∧
    Memory.wf [(1, 1#8), (0, 1#8)] = false ∧ Memory.wf [(0, 2#8), (4, 1#8)] = true := by decide

/-! ### Words written out from the encodings (R81, R82, R83, R85, R86, R88) -/

theorem test_decode_reset : decode (.input 0b100#3) = .ok .reset ∧ decode (.input 0b111#3) = .ok .reset := ⟨rfl, rfl⟩
theorem test_decode_start : decode (.input 0b010#3) = .ok .start ∧ decode (.input 0b011#3) = .ok .start := ⟨rfl, rfl⟩
theorem test_decode_idle : decode (.phase 0b0000#4) = .ok .idle := rfl
theorem test_decode_initLow : decode (.phase 0b0001#4) = .ok .initLow := rfl
theorem test_decode_ackWaitH1 : decode (.phase 0b0010#4) = .ok .ackWaitH1 := rfl
theorem test_decode_ackWaitL : decode (.phase 0b0011#4) = .ok .ackWaitL := rfl
theorem test_decode_ackWaitH2 : decode (.phase 0b0100#4) = .ok .ackWaitH2 := rfl
theorem test_decode_bitWaitL : decode (.phase 0b0101#4) = .ok .bitWaitL := rfl
theorem test_decode_bitWaitH : decode (.phase 0b0110#4) = .ok .bitWaitH := rfl
theorem test_decode_sampleDelay : decode (.phase 0b0111#4) = .ok .sampleDelay := rfl
theorem test_decode_sample : decode (.phase 0b1000#4) = .ok .sample := rfl
theorem test_decode_append : decode (.event 0b10100000#8) = .ok (.append 0xA0#8) := rfl
/-- `count = 0b101`, then the five bytes 02 8C 01 11 A0, bit by bit. -/
theorem test_decode_decode :
    decode (.frame 0b101_00000010_10001100_00000001_00010001_10100000#43) = .ok (.decode 5#3 frameS2) := rfl
theorem test_decode_readTemperature : decode (.api 0b010#3) = .ok (.readTemperature false) := rfl
theorem test_decode_readHumidity : decode (.api 0b101#3) = .ok (.readHumidity true) := rfl
theorem test_decode_readBoth : decode (.api 0b111#3) = .ok (.readBoth true) := rfl
theorem test_decode_sym0 : decode (.wire 0b0#1) = .ok .sym0 := rfl
theorem test_decode_sym1 : decode (.wire 0b1#1) = .ok .sym1 := rfl
theorem test_decode_reserved : decode (.phase 0b1001#4) = .error (.reservedPhase 9#4) ∧
    decode (.api 0b001#3) = .error (.reservedApiOp 1#3) ∧ decode (.input 0b001#3) = .error .noCommand := ⟨rfl, rfl, rfl⟩

/-! ### Table words and placing (entries 11, 12) -/

theorem test_table_words : decodeTableWord 8 0x7 = some .sampleDelay ∧ decodeTableWord 8 0xA0 = some (.append 0xA0#8) ∧
    decodeTableWord 3 0b010 = some .start ∧ decodeTableWord 48 0x5028C0111A0 = some (.decode 5#3 frameS2) ∧
    decodeTableWord 1 1 = some .sym1 ∧ decodeTableWord 4 9 = none := by decide
theorem test_place_phase : phaseOf (step (State.reset.withFetchWord 8 0x1)) = some (1#4, 1#4, false) := by decide
theorem test_place_event :
    (after (step (State.reset.withFetchWord 8 0xA0))).map (fun t => (byteAt t.asm.buf 0, t.asm.count)) =
      some (0xA0#8, 1#3) := by decide
theorem test_place_frame :
    (after (step (State.reset.withFetchWord 48 0x5028C0111A0))).map (fun t => t.host.snapshot) =
      some (some ⟨5#3, frameS2, .ok 652#16 273#16⟩) := by decide
theorem test_place_input : phaseOf (step (State.reset.withFetchWord 3 0b010)) = some (1#4, 0#4, false) := by decide

/-! ### Vectors of 95_test_vectors -/

/-- V-E3: `rst` and `start` together. -/
theorem test_reset_wins :
    (after (step (withStimulus [.input 0b110#3]
      { pending 0x77#8 1#3 [(0, 2#8)] with eng := { atPhase 6#4 with bytecnt := 1#3, shreg := 2#8 } }))).map
      (fun t => (t.eng, t.asm)) = some (Engine.reset, Assembler.cleared) := by decide
/-- V-E4, V-A6: START while an event is pending. -/
theorem test_start_drops_event :
    (after (step (withStimulus [.input 0b010#3] (pending 0x02#8 2#3 [(0, 2#8), (1, 0x8C#8)])))).map
      (fun t => (t.eng, t.asm)) = some ({ Engine.reset with phase := 1#4 }, Assembler.cleared) := by decide
/-- V-P0a. -/
theorem test_idle : phaseOf (exec .idle (withEngine (atPhase 0#4))) = some (0#4, 0#4, false) := by decide
/-- V-P1b. -/
theorem test_initLow_inside :
    phaseOf (exec .initLow (withEngine { atPhase 1#4 with cyc := 7#4 })) = some (1#4, 8#4, false) := by decide
/-- V-P1c. -/
theorem test_initLow_last :
    phaseOf (exec .initLow (withEngine { atPhase 1#4 with cyc := 8#4 })) = some (2#4, 0#4, false) := by decide
/-- V-P2a, V-P2b. -/
theorem test_ackWaitH1 : phaseOf (exec .ackWaitH1 (withLine false (withEngine (atPhase 2#4)))) = some (2#4, 0#4, false) ∧
    phaseOf (exec .ackWaitH1 (withLine true (withEngine (atPhase 2#4)))) = some (3#4, 0#4, false) := by decide
/-- V-P3a, V-P3b. -/
theorem test_ackWaitL : phaseOf (exec .ackWaitL (withLine true (withEngine (atPhase 3#4)))) = some (3#4, 0#4, false) ∧
    phaseOf (exec .ackWaitL (withLine false (withEngine (atPhase 3#4)))) = some (4#4, 0#4, false) := by decide
/-- V-P4a, V-P4b. -/
theorem test_ackWaitH2 : phaseOf (exec .ackWaitH2 (withLine false (withEngine (atPhase 4#4)))) = some (4#4, 0#4, false) ∧
    phaseOf (exec .ackWaitH2 (withLine true (withEngine (atPhase 4#4)))) = some (5#4, 0#4, false) := by decide
/-- V-P5a, V-P5b. -/
theorem test_bitWaitL : phaseOf (exec .bitWaitL (withLine true (withEngine (atPhase 5#4)))) = some (5#4, 0#4, false) ∧
    phaseOf (exec .bitWaitL (withLine false (withEngine (atPhase 5#4)))) = some (6#4, 0#4, false) := by decide
/-- V-P6a, V-P6b. -/
theorem test_bitWaitH : phaseOf (exec .bitWaitH (withLine false (withEngine (atPhase 6#4)))) = some (6#4, 0#4, false) ∧
    phaseOf (exec .bitWaitH (withLine true (withEngine (atPhase 6#4)))) = some (7#4, 0#4, false) := by decide
/-- V-P7a, V-P7b. -/
theorem test_sampleDelay : phaseOf (exec .sampleDelay (withEngine (atPhase 7#4))) = some (7#4, 1#4, false) ∧
    phaseOf (exec .sampleDelay (withEngine { atPhase 7#4 with cyc := 1#4 })) = some (8#4, 0#4, false) := by decide
/-- V-P8c: the eighth bit of the second byte. -/
theorem test_sample_emits :
    (after (exec .sample (withLine false
      (withEngine { atPhase 8#4 with shreg := 0x46#8, bitcnt := 7#3, bytecnt := 1#3 })))).map (fun t => t.eng) =
      some ⟨5#4, 0#4, 0#3, 2#3, 0x8C#8, true, 0x8C#8⟩ := by decide
/-- V-P8d: the fortieth bit. -/
theorem test_sample_last :
    (after (exec .sample (withLine false
      (withEngine { atPhase 8#4 with shreg := 0x50#8, bitcnt := 7#3, bytecnt := 4#3 })))).map (fun t => t.eng) =
      some ⟨0#4, 0#4, 0#3, 0#3, 0xA0#8, true, 0xA0#8⟩ := by decide
/-- V-P0b, V-A3: the fifth byte lands beside IDLE. -/
theorem test_append_fifth :
    (after (step (withStimulus [.input 0b000#3] (pending 0xA0#8 4#3 [(0, 2#8), (1, 0x8C#8), (2, 1#8), (3, 0x11#8)])))).map
      (fun t => (memFrame t.asm.buf, t.asm.count, t.eng.evValid, (resultPort t).result)) =
      some (frameS2, 5#3, false, .ok 652#16 273#16) := by decide
/-- V-A7: the overrun in a model. -/
theorem test_append_overrun : faultOf (exec (.append 0x77#8) (pending 0x77#8 5#3 [])) = some .overrun := by decide
/-- V-P9: a reserved phase in a model. -/
theorem test_reserved_phase :
    faultOf (step (withStimulus [.input 0b000#3] (withEngine (atPhase 12#4)))) = some (.reservedPhase 12#4) := by decide
/-- S1, V-D2: the sign case; V-D4: negative zero; V-D6: the most negative value. -/
theorem test_decode_values : decodeFrame 5#3 ⟨0x00#8, 0x00#8, 0x81#8, 0x0A#8, 0x8B#8⟩ = .ok 0#16 0xFEF6#16 ∧
    decodeFrame 5#3 ⟨0x00#8, 0x00#8, 0x80#8, 0x00#8, 0x80#8⟩ = .ok 0#16 0#16 ∧
    decodeFrame 5#3 ⟨0xFF#8, 0xFF#8, 0xFF#8, 0xFF#8, 0xFC#8⟩ = .ok 65535#16 0x8001#16 := by decide
/-- V-D16: one data bit flipped; S5, V-D19a and V-D19d: incomplete frames. -/
theorem test_decode_failures : decodeFrame 5#3 ⟨0x02#8, 0x8C#8, 0x01#8, 0x10#8, 0xA0#8⟩ = .fail .checksumMismatch ∧
    decodeFrame 3#3 ⟨0x02#8, 0x8C#8, 0x01#8, 0x00#8, 0x00#8⟩ = .fail .incompleteFrame ∧
    decodeFrame 6#3 frameS2 = .fail .incompleteFrame := by decide
/-- The result words of V-D1 and V-D15. -/
theorem test_result_word : (decodeFrame 5#3 frameS2).word = 0x0028C0111#34 ∧
    (decodeFrame 5#3 { frameS2 with b4 := 0xA1#8 }).word = 0x200000000#34 := by decide
/-- V-D22, V-D26. -/
theorem test_encode : encodeReading 1000#16 (-400) = ⟨0x03#8, 0xE8#8, 0x81#8, 0x90#8, 0xFC#8⟩ ∧
    encodeReading 450#16 (-1) = ⟨0x01#8, 0xC2#8, 0x80#8, 0x01#8, 0x44#8⟩ := by decide
/-- V-H1: served from the cache. -/
theorem test_readTemperature_cached :
    (after (exec (.readTemperature false) (cached 1500))).map (fun t => (t.host.coord, t.host.answer)) =
      some (.idle, some (.temperature (some 273))) := by decide
/-- V-H2, V-H2b: exactly the interval is served from the cache, one millisecond more triggers. -/
theorem test_readHumidity_boundary :
    (after (exec (.readHumidity false) (cached 3000))).map (fun t => (t.host.coord, t.host.answer)) =
      some (.idle, some (.humidity (some 652))) ∧
    (after (exec (.readHumidity false) (cached 3001))).map (fun t => t.host.coord) = some .triggering := by decide
/-- V-H4: forced. -/
theorem test_readBoth_forced :
    (after (exec (.readBoth true) (cached 1001))).map (fun t => (t.host.coord, t.host.call)) =
      some (.triggering, some .both) := by decide
/-- V-H3: the end of an acquisition that failed before any success. -/
theorem test_decoding_unavailable :
    (after (step (hostIn .decoding))).map (fun t => (t.host.coord, t.host.answer, t.host.sink)) =
      some (.idle, some (.both none), [.incompleteFrame]) := by decide
/-- V-P8a: SYM1 at the strobe. -/
theorem test_sym1 :
    (after (andThen (exec .sym1 (withLine false (withEngine (atPhase 8#4)))) (exec .sample))).map
      (fun t => (t.eng.shreg, t.eng.bitcnt)) = some (1#8, 1#3) := by decide
/-- V-P8b: SYM0 at the strobe. -/
theorem test_sym0 :
    (after (andThen (exec .sym0 (withLine true (withEngine { atPhase 8#4 with shreg := 1#8, bitcnt := 1#3 })))
      (exec .sample))).map (fun t => (t.eng.shreg, t.eng.bitcnt)) = some (2#8, 2#3) := by decide
/-- 93 U1 and U15. -/
theorem test_refusals : refusalOf (exec (.readBoth true) (hostIn .waiting)) = some .overlappingCall ∧
    refusalOf (step (playing [.call 0b001#3])) = some (.reservedApiOp 1#3) := by decide

/-! ### Witnesses: states and operands that meet the hypotheses of each statement, a clause at a time -/

/-- The first byte of a frame just completed: a state with an event pending that meets the invariant. -/
def midFrame : State :=
  withEngine { phase := 5#4, cyc := 0#4, bitcnt := 0#3, bytecnt := 1#3, shreg := 2#8, evValid := true, evData := 2#8 }

/-- A complete frame in the buffer, the host about to decode it. -/
def fullFrame : State := { hostIn .decoding with asm := { buf := memOfFrame frameS2, count := 5#3 } }

/-- Parameters at the ends of their ranges (R6). -/
def withParams (settle delay : Nat) (s : State) : State :=
  { s with par := { Params.default with nSettle := settle, nSampleDelay := delay } }

/-- A wait with `k` edges left. -/
def waitingFor (k : Nat) (ms : List Move) : State :=
  { playing ms with host := { Coordinator.constructed with coord := .waiting, call := some .both, waitLeft := k } }

theorem inv_of_parts {s : State} (hp : s.par.wellFormed = true)
    (hb : s.eng = Engine.reset ∧ s.asm.count = 0#3 ∨ s.eng = midFrame.eng ∧ s.asm.count = 0#3)
    (hm : s.asm.buf = []) (hh : HostInv s) : s.Inv := by
  refine ⟨hp, ?_, ⟨by rw [hm]; rfl, fun a _ => by rw [hm]; rfl⟩, hh⟩
  rcases hb with ⟨he, hc⟩ | ⟨he, hc⟩ <;> constructor <;> simp only [he, hc] <;>
    first | decide | exact fun h => absurd h (by decide)

theorem hostInv_idle {s : State} (h : s.host = Coordinator.constructed) : HostInv s := by
  constructor <;> rw [h] <;> simp [Coordinator.constructed]

theorem test_witness_playing_inv (ms : List Move) : (playing ms).Inv :=
  inv_of_parts (s := playing ms) (show Params.default.wellFormed = true by decide) (.inl ⟨rfl, rfl⟩) rfl (hostInv_idle rfl)

theorem test_witness_midFrame_inv (ms : List Move) : (withStimulus ms midFrame).Inv :=
  inv_of_parts (s := withStimulus ms midFrame) (show Params.default.wellFormed = true by decide) (.inr ⟨rfl, rfl⟩) rfl
    (hostInv_idle rfl)

theorem test_witness_waiting_inv {k : Nat} (hk : 0 < k) (ms : List Move) : (waitingFor k ms).Inv := by
  refine inv_of_parts (s := waitingFor k ms) (show Params.default.wellFormed = true by decide) (.inl ⟨rfl, rfl⟩) rfl ?_
  constructor <;> simp [waitingFor, Coordinator.constructed, hk]

theorem test_witness_DecodeAndEncodeAgree : (Instr.decode 5#3 frameS2).wellFormed = true ∧
    decode (.phase 8#4) = .ok .sample ∧ (OpWord.phase 8#4).format ≠ .I := ⟨by decide, rfl, by decide⟩
theorem test_witness_DecoderFollowsOpcodeTable : decode (.input 0b111#3) = .ok .reset ∧
    (rowOf .start).matches (.input 0b011#3) = true ∧ (rowOf (.readBoth true)).matches (.api 0b110#3) = true :=
  ⟨rfl, by decide, by decide⟩
theorem test_witness_OnlyReservedWordsRejected : 9 ≤ (9#4 : BitVec 4).toNat ∧ 9 ≤ (15#4 : BitVec 4).toNat ∧
    (1#3 : BitVec 3).toNat < 2 ∧ decode (.phase 9#4) = .error (.reservedPhase 9#4) ∧
    decode (.api 1#3) = .error (.reservedApiOp 1#3) ∧ decode (.input 1#3) = .error .noCommand :=
  ⟨by decide, by decide, by decide, rfl, rfl, rfl⟩
theorem test_witness_StepRuns_input : (playing [.input 0b010#3]).host.coord ≠ .decoding ∧
    (playing [.input 0b010#3]).env.stimulus = [.input 0b010#3] ∧
    decodeInput (portWord 0b010#3 (playing [.input 0b010#3])) = .ok .start ∧
    decodeInput (portWord 0b000#3 { hostIn .triggering with env := (playing [.input 0b000#3]).env }) = .ok .start :=
  ⟨by decide, rfl, rfl, rfl⟩
theorem test_witness_StepRuns_phase : (playing [.input 0b001#3]).host.coord ≠ .decoding ∧
    (playing [.input 0b001#3]).env.stimulus = [.input 0b001#3] ∧
    decodeInput (portWord 0b001#3 (playing [.input 0b001#3])) = .error .noCommand ∧
    decodePhase (playing [.input 0b001#3]).eng.phase = .ok .idle ∧ decodePhase midFrame.eng.phase = .ok .bitWaitL :=
  ⟨by decide, rfl, rfl, rfl, rfl⟩
theorem test_witness_StepRuns_moves : decode (.api 0b011#3) = .ok (.readTemperature true) ∧
    (playing [.call 0b011#3]).env.stimulus = [.call 0b011#3] ∧ decode (.wire 1#1) = .ok .sym1 ∧
    (playing [.wire 1#1]).env.stimulus = [.wire 1#1] ∧ (playing [.observe]).env.stimulus = [.observe] ∧
    decode (.frame (frameWord State.reset.asm.count (memFrame State.reset.asm.buf))) =
      .ok (.decode 0#3 ⟨0#8, 0#8, 0#8, 0#8, 0#8⟩) := ⟨rfl, rfl, rfl, rfl, rfl, rfl⟩
theorem test_witness_EdgePriority : (0b110#3 : BitVec 3).getLsbD 2 = true ∧ (0b011#3 : BitVec 3).getLsbD 2 = false ∧
    (0b011#3 : BitVec 3).getLsbD 1 = true ∧ (0b001#3 : BitVec 3).getLsbD 2 = false ∧
    (0b001#3 : BitVec 3).getLsbD 1 = false ∧ decodePhase State.reset.eng.phase = .ok .idle ∧
    State.reset.eng.evValid = false ∧ decodePhase midFrame.eng.phase = .ok .bitWaitL ∧ midFrame.eng.evValid = true ∧
    9 ≤ (withEngine (atPhase 9#4)).eng.phase.toNat :=
  ⟨by decide, by decide, by decide, by decide, by decide, rfl, rfl, rfl, rfl, by decide⟩
theorem test_witness_AppendAndPhaseOperationAreSimultaneous : ∃ u v, decodePhase 5#4 = .ok .bitWaitL ∧
    midFrame.eng.evValid = true ∧ exec (.append midFrame.eng.evData) midFrame = .next u ∧
    exec .bitWaitL midFrame = .next v := ⟨_, _, rfl, rfl, rfl, rfl⟩
theorem test_witness_InitLowCountsItsEdges :
    (withParams 1 1 (withEngine (atPhase 1#4))).par.wellFormed = true ∧
    (withEngine (atPhase 1#4)).eng.cyc.toNat = (withParams 1 1 State.reset).par.nSettle - 1 ∧
    (withParams 16 1 State.reset).par.wellFormed = true ∧
    (withEngine { atPhase 1#4 with cyc := 15#4 }).eng.cyc.toNat = (withParams 16 1 State.reset).par.nSettle - 1 ∧
    (withEngine { atPhase 1#4 with cyc := 14#4 }).eng.cyc.toNat ≠ (withParams 16 1 State.reset).par.nSettle - 1 := by
  decide
theorem test_witness_SampleDelayCountsItsEdges :
    (withParams 1 1 (withEngine (atPhase 7#4))).par.wellFormed = true ∧
    (withEngine (atPhase 7#4)).eng.cyc.toNat = (withParams 1 1 State.reset).par.nSampleDelay - 1 ∧
    (withParams 1 16 State.reset).par.wellFormed = true ∧
    (withEngine { atPhase 7#4 with cyc := 15#4 }).eng.cyc.toNat = (withParams 1 16 State.reset).par.nSampleDelay - 1 ∧
    (withEngine { atPhase 7#4 with cyc := 14#4 }).eng.cyc.toNat ≠ (withParams 1 16 State.reset).par.nSampleDelay - 1 := by
  decide
theorem test_witness_SampleShiftsAndEmits : (withEngine { atPhase 8#4 with bitcnt := 6#3 }).eng.bitcnt.toNat < 7 ∧
    (withEngine { atPhase 8#4 with bitcnt := 7#3, bytecnt := 3#3 }).eng.bitcnt.toNat = 7 ∧
    (withEngine { atPhase 8#4 with bitcnt := 7#3, bytecnt := 3#3 }).eng.bytecnt ≠ 4#3 ∧
    (withEngine { atPhase 8#4 with bitcnt := 7#3, bytecnt := 4#3 }).eng.bytecnt = 4#3 := by decide
theorem test_witness_OnlyACompletingSampleEmits : ∃ t, decodePhase 8#4 = .ok .sample ∧
    exec .sample (withEngine { atPhase 8#4 with bitcnt := 7#3 }) = .next t ∧
    (withEngine { atPhase 8#4 with bitcnt := 7#3 }).eng.bitcnt = 7#3 ∧ (withEngine (atPhase 8#4)).eng.bitcnt ≠ 7#3 :=
  ⟨_, rfl, rfl, rfl, by decide⟩
theorem test_witness_SymbolsAreWhatSampleReads : ∃ t u, andThen (exec .sym0 State.reset) (exec .sample) = .next t ∧
    andThen (exec .sym1 State.reset) (exec .sample) = .next u := ⟨_, _, rfl, rfl⟩
theorem test_witness_EightSamplesDeliverAByte : (withEngine (atPhase 8#4)).eng.bitcnt = 0#3 ∧ 0 < 1 ∧ 7 < 8 := by decide
theorem test_witness_InitiationPulseLasts :
    let s := withStimulus (levelMoves (List.replicate 9 true) ++ []) (withEngine (atPhase 1#4))
    s.par.wellFormed = true ∧ s.host.coord = .idle ∧ s.env.stimulus = levelMoves (List.replicate 9 true) ++ [] ∧
    s.eng.phase = Phase.initLow ∧ s.eng.cyc = 0#4 ∧ s.eng.evValid = false ∧
    8 ≤ (List.replicate 9 true).length ∧ 8 < s.par.nSettle ∧ s.par.nSettle ≤ (List.replicate 9 true).length := by decide
theorem test_witness_PulseLengthDecidesTheBit :
    let s := withStimulus (Stim.high 3 ++ Stim.low 1 ++ []) (withEngine (atPhase 6#4))
    let t := withStimulus (Stim.high 4 ++ Stim.low 0 ++ []) (withEngine (atPhase 6#4))
    s.par.wellFormed = true ∧ s.host.coord = .idle ∧ s.eng.phase = Phase.bitWaitH ∧ s.eng.evValid = false ∧
    s.par.nSampleDelay + 2 ≤ 3 + 1 ∧ s.env.stimulus = Stim.high 3 ++ Stim.low 1 ++ [] ∧ ¬ s.par.nSampleDelay + 2 ≤ 3 ∧
    t.eng.phase = Phase.bitWaitH ∧ t.env.stimulus = Stim.high 4 ++ Stim.low 0 ++ [] ∧ t.par.nSampleDelay + 2 ≤ 4 := by
  decide
theorem test_witness_StallKeepsTheBlock :
    let s := withStimulus (levelMoves (List.replicate 2 (!true)) ++ [.input (lineWord true)]) (withEngine (atPhase 2#4))
    s.host.coord = .idle ∧ s.eng.evValid = false ∧ awaits s.eng.phase = some true ∧
    s.env.stimulus = levelMoves (List.replicate 2 (!true)) ++ (.input (lineWord true) :: []) := by decide
theorem test_witness_LineIgnoredWhereNotRead : ∃ t u, State.reset.host.coord ≠ .decoding ∧
    State.reset.eng.phase = Phase.idle ∧ (0b10#2 : BitVec 2) ≠ 0#2 ∧
    step (withStimulus [.input (0b00#2 ++ BitVec.ofBool true)] State.reset) = .next t ∧
    step (withStimulus [.input (0b10#2 ++ BitVec.ofBool true)] State.reset) = .next u :=
  ⟨_, _, by decide, rfl, by decide, rfl, rfl⟩
theorem test_witness_LineOutputsByPhase : State.reset.eng.phase = Phase.idle ∧
    (withEngine (atPhase 1#4)).eng.phase = Phase.initLow ∧ (withEngine (atPhase 2#4)).eng.phase ≠ Phase.idle ∧
    (withEngine (atPhase 2#4)).eng.phase ≠ Phase.initLow := by decide

/-- Observations alone never stop a run. -/
theorem observing_runs (k : Nat) : ∀ s : State, s.host.coord = .idle →
    s.env.stimulus = List.replicate k .observe → ∃ u, runSteps k s = .next u := by
  induction k with
  | zero => exact fun s _ _ => ⟨s, rfl⟩
  | succ k ih =>
    intro s hc hs
    have hstep : step s = exec (.decode s.asm.count (memFrame s.asm.buf)) (withStimulus (List.replicate k .observe) s) := by
      simp [step, nextMove, hc, hs, List.replicate_succ, playMove, withStimulus]
    obtain ⟨u, hu⟩ := ih ((withStimulus (List.replicate k .observe) s).withHost
      { s.host with snapshot := some ⟨s.asm.count, memFrame s.asm.buf, decodeFrame s.asm.count (memFrame s.asm.buf)⟩ }) hc rfl
    exact ⟨u, by rw [runSteps, hstep]; exact hu⟩

theorem test_witness_NoFrameBeforeTheMinimum : ∃ t u, State.reset.par.wellFormed = true ∧
    exec .start (playing (List.replicate 212 .observe)) = .next t ∧
    212 < State.reset.par.nSettle + 4 + 40 * (State.reset.par.nSampleDelay + 3) ∧ runSteps 212 t = .next u := by
  obtain ⟨u, hu⟩ := observing_runs 212
    ((clearFrame (playing (List.replicate 212 .observe))).withEng { Engine.reset with phase := Phase.initLow }) rfl rfl
  exact ⟨_, u, by decide, rfl, by decide, hu⟩
theorem test_witness_CleanWaveformDeliversTheFrame : ∃ s : State, s.par.nSettle = 9 ∧ s.par.nSampleDelay = 2 ∧
    s.host.coord = .idle ∧ s.env.stimulus = Stim.start ++ Stim.init ++ Stim.ack ++ Stim.frame frameS2 ++ Stim.tail ++ [] :=
  ⟨playing _, rfl, rfl, rfl, rfl⟩
theorem test_witness_AppendWritesTheNextCell : Memory.wf (pending 1#8 0#3 []).asm.buf = true ∧
    (pending 1#8 0#3 []).eng.evValid = true ∧ (pending 1#8 4#3 [(0, 1#8)]).asm.count.toNat ≤ 4 ∧
    Memory.wf (pending 1#8 4#3 [(0, 1#8)]).asm.buf = true ∧ State.reset.eng.evValid = false := by decide
theorem test_witness_OverrunIsAFault : (pending 1#8 5#3 []).eng.evValid = true ∧
    5 ≤ (pending 1#8 5#3 []).asm.count.toNat ∧ 5 ≤ (pending 1#8 7#3 []).asm.count.toNat := by decide
theorem test_witness_PendingEventIsAppendedAtTheNextEdge :
    let s := withStimulus [.input (lineWord false)] midFrame
    s.Inv ∧ s.host.coord ≠ .decoding ∧ s.host.coord ≠ .triggering ∧ s.eng.evValid = true ∧
    s.env.stimulus = .input (lineWord false) :: [] :=
  ⟨test_witness_midFrame_inv _, by decide, by decide, rfl, rfl⟩
theorem test_witness_CountGrowsByOneUntilCleared : ∃ t u, (withStimulus [.input 0b000#3] midFrame).Inv ∧
    step (withStimulus [.input 0b000#3] midFrame) = .next t ∧ step (withStimulus [.input 0b100#3] midFrame) = .next u :=
  ⟨_, _, test_witness_midFrame_inv _, rfl, rfl⟩
theorem test_witness_DecodeHasThreeOutcomes : (4#3 : BitVec 3) ≠ 5#3 ∧ (6#3 : BitVec 3) ≠ 5#3 ∧
    (frameS2.b0.toNat + frameS2.b1.toNat + frameS2.b2.toNat + frameS2.b3.toNat) % 256 = frameS2.b4.toNat ∧
    (frameS2.b0.toNat + frameS2.b1.toNat + frameS2.b2.toNat + frameS2.b3.toNat) % 256 ≠ (0xA1#8 : Byte).toNat := by decide
/-- V-D1, V-D2, V-D4 and the boundary `b2 = 0x7F`, `0x80` (V-D5, V-D9). -/
theorem test_witness_HumidityAndTemperature : decodeFrame 5#3 frameS2 = .ok 652#16 273#16 ∧
    decodeFrame 5#3 ⟨0xFF#8, 0xFF#8, 0x7F#8, 0xFF#8, 0x7C#8⟩ = .ok 65535#16 0x7FFF#16 ∧ (0x7F#8 : Byte).toNat < 128 ∧
    decodeFrame 5#3 ⟨0x00#8, 0x00#8, 0x80#8, 0x01#8, 0x81#8⟩ = .ok 0#16 0xFFFF#16 ∧ 128 ≤ (0x80#8 : Byte).toNat ∧
    decodeFrame 5#3 ⟨0x00#8, 0x00#8, 0x80#8, 0x00#8, 0x80#8⟩ = .ok 0#16 0#16 := by decide
theorem test_witness_ResultWordLayout : decodeFrame 5#3 frameS2 = .ok 652#16 273#16 ∧
    decodeFrame 0#3 frameS2 = .fail .incompleteFrame ∧
    decodeFrame 5#3 { frameS2 with b4 := 0#8 } = .fail .checksumMismatch := by decide
theorem test_witness_EncodeDecodeRoundTrip : (-32767 : Int) ≤ -32767 ∧ (32767 : Int) ≤ 32767 ∧
    decodeFrame 5#3 frameS2 = .ok 652#16 273#16 ∧ ¬ (frameS2.b2 = 0x80#8 ∧ frameS2.b3 = 0x00#8) ∧
    decodeFrame 5#3 ⟨0x00#8, 0x00#8, 0x80#8, 0x00#8, 0x80#8⟩ = .ok 0#16 0#16 := by decide
theorem test_witness_ObservationIsASnapshot : (playing [.observe]).host.coord ≠ .decoding ∧
    (playing [.observe]).env.stimulus = .observe :: [] := ⟨by decide, rfl⟩
/-- No reading yet; forced; one millisecond over the interval (V-H2b); exactly the interval (V-H2). -/
theorem test_witness_ReadsAreGated : State.reset.host.coord = .idle ∧ mustAcquire false State.reset ∧
    (cached 1001).host.coord = .idle ∧ mustAcquire true (cached 1001) ∧ mustAcquire false (cached 3001) ∧
    ¬ mustAcquire false (cached 3000) := by
  refine ⟨rfl, .inr (.inl rfl), rfl, .inl rfl, .inr (.inr ⟨_, rfl, by decide⟩), ?_⟩
  rintro (h | h | ⟨r, hr, h⟩)
  · cases h
  · cases h
  · cases hr; revert h; decide
theorem test_witness_OverlappingCallsAreRefused : (hostIn .triggering).host.coord ≠ .idle ∧
    (hostIn .waiting).host.coord ≠ .idle ∧ (hostIn .decoding).host.coord ≠ .idle := by decide
theorem test_witness_ReservedCallWordIsRefused : (playing [.call 1#3]).host.coord ≠ .decoding ∧
    (0#3 : BitVec 3).toNat < 2 ∧ (1#3 : BitVec 3).toNat < 2 ∧ (playing [.call 1#3]).env.stimulus = .call 1#3 :: [] :=
  ⟨by decide, by decide, by decide, rfl⟩
theorem test_witness_TriggeringPulsesStart : (0b001#3 : BitVec 3).getLsbD 2 = false ∧
    (withStimulus [.input 0b001#3] (hostIn .triggering)).host.coord = .triggering ∧
    (withStimulus [.input 0b001#3] (hostIn .triggering)).env.stimulus = .input 0b001#3 :: [] ∧
    0 < (hostIn .triggering).par.waitCycles := ⟨by decide, rfl, rfl, by decide⟩
theorem test_witness_DecodingActsOnTheSnapshot : fullFrame.host.coord = .decoding ∧
    (resultPort fullFrame).result = .ok 652#16 273#16 ∧ fullFrame.host.call = some .both ∧
    (hostIn .decoding).host.coord = .decoding ∧ (resultPort (hostIn .decoding)).result = .fail .incompleteFrame := by decide
/-- For CacheChangesOnlyOnSuccess, SinkGrowsByFailedAcquisitions and ClockMonotoneParametersConstant. -/
theorem test_witness_HostSteps : ∃ t u v, step fullFrame = .next t ∧ step (hostIn .decoding) = .next u ∧
    step (playing [.elapse 7]) = .next v := ⟨_, _, _, rfl, rfl, rfl⟩
theorem test_witness_NeverUnavailableAgain : ∃ t, (withStimulus [.observe] (cached 1500)).host.cache.isSome = true ∧
    step (withStimulus [.observe] (cached 1500)) = .next t := ⟨_, rfl, rfl⟩
theorem test_witness_WaitEndsUnconditionally :
    let s := waitingFor 1 ([(0b110#3 : BitVec 3)].map Move.input ++ [])
    s.Inv ∧ s.host.coord = .waiting ∧ [(0b110#3 : BitVec 3)].length = s.host.waitLeft ∧
    s.env.stimulus = [(0b110#3 : BitVec 3)].map Move.input ++ [] ∧ 0 < [(0b110#3 : BitVec 3)].length :=
  ⟨test_witness_waiting_inv (by decide) _, rfl, rfl, rfl, by decide⟩
theorem test_witness_ReadCallRunsToItsEnd :
    let n := 1 + State.reset.par.waitCycles + Config.freeWaitSlack State.reset.env.draws
    let ws : List (BitVec 3) := List.replicate n 0b000#3
    let s := playing (.call 0b111#3 :: (ws.map Move.input ++ []))
    s.Inv ∧ s.host.coord = .idle ∧ mustAcquire true s ∧ encode (.readBoth true) = .api 0b111#3 ∧
    ws.length = 1 + s.par.waitCycles + Config.freeWaitSlack s.env.draws ∧
    s.env.stimulus = .call 0b111#3 :: (ws.map Move.input ++ []) :=
  ⟨test_witness_playing_inv _, rfl, .inl rfl, rfl, List.length_replicate, rfl⟩
theorem test_witness_StepKeepsTheInvariant : ∃ t, (playing [.observe]).Inv ∧ step (playing [.observe]) = .next t :=
  ⟨_, test_witness_playing_inv _, rfl⟩
theorem test_witness_EachAgentWritesItsOwn : ∃ t u, exec .start midFrame = .next t ∧ t.asm ≠ (pending 1#8 1#3 []).asm ∧
    exec (.readBoth true) State.reset = .next u ∧ u.host ≠ State.reset.host := ⟨_, _, rfl, by decide, rfl, by decide⟩

end Sys2Proof.Tests
end

section
/-! PROOFS of the scope family: what a step runs (30_encoding R81, R93, 60_exceptions R208), and APPEND beside the phase
operation of one edge (00_scope R7). -/

namespace Sys2Proof.Machine

/-! ### APPEND and the phase operation write disjoint registers -/

/-- APPEND writes the assembler's storage and nothing else (R140). -/
theorem exec_append_frame {d : Byte} {s u : State} (h : exec (.append d) s = .next u) : u = s.withAsm u.asm := by
  change execAppend d s = .next u at h
  unfold execAppend at h
  split at h
  · split at h
    · cases h; rfl
    · cases h
  · cases h; rfl

/-- A phase operation neither reads nor writes the assembler's storage: put before it, another storage is there after
it, and all else comes out the same (R20, R208). -/
theorem exec_phase_withAsm {c : BitVec 4} {i : Instr} (hd : decodePhase c = .ok i) {s v : State}
    (h : exec i s = .next v) (a : Assembler) : exec i (s.withAsm a) = .next (v.withAsm a) := by
  unfold decodePhase at hd
  split at hd <;> cases hd <;> cases h <;> rfl

/-- Settles O7: APPEND hands the phase operation the pre-edge state with only its storage replaced, which the phase
operation does not look at. -/
theorem appendAndPhaseOperationAreSimultaneous : Obligations.AppendAndPhaseOperationAreSimultaneous := by
  intro s u v c i hd _ hu hv
  calc andThen (exec (.append s.eng.evData) s) (exec i)
      = exec i u := by rw [hu, andThen_next]
    _ = exec i (s.withAsm u.asm) := by rw [← exec_append_frame hu]
    _ = .next (v.withAsm u.asm) := exec_phase_withAsm hd hv u.asm

/-! ### What an edge and a step run -/

/-- A word that decodes to RESET or START selects that operation (R81). -/
theorem blockEdge_of_command {w : BitVec 3} {i : Instr} (h : decodeInput w = .ok i) (s : State) :
    blockEdge w s = exec i s := by
  rw [blockEdge, h]

/-- A word without command leaves the edge to the phase register (R81, R93). -/
theorem blockEdge_of_noCommand {w : BitVec 3} {e : DecodeError} (h : decodeInput w = .error e) (s : State) :
    blockEdge w s = phaseEdge s := by
  rw [blockEdge, h]

/-- A legal phase code selects its operation, with APPEND before it when an event is pending (R208). -/
theorem phaseEdge_of_decoded {i : Instr} {s : State} (h : decodePhase s.eng.phase = .ok i) :
    phaseEdge s = if s.eng.evValid then andThen (exec (.append s.eng.evData) s) (exec i) else exec i s := by
  rw [phaseEdge, h]

/-- A caller's word with a meaning runs that meaning (R88). -/
theorem apiCall_of_decoded {a : BitVec 3} {i : Instr} (h : decodeApi a = .ok i) (s : State) :
    apiCall a s = exec i s := by
  rw [apiCall, h]

/-- The frame word carries `count` above its forty frame bits (R86). -/
theorem countOfWord_frameWord (n : BitVec 3) (f : Frame) : countOfWord (frameWord n f) = n := by
  unfold countOfWord frameWord
  ext i hi
  grind

/-- Each byte of the frame is read where the frame word puts it (R86). -/
theorem frameOfWord_frameWord (n : BitVec 3) (f : Frame) : frameOfWord (frameWord n f) = f := by
  obtain ⟨b0, b1, b2, b3, b4⟩ := f
  simp only [frameOfWord, frameWord, Frame.mk.injEq]
  refine ⟨?b0, ?b1, ?b2, ?b3, ?b4⟩ <;> (ext i hi; grind)

/-- The word of the port's `count` and frame decodes to DECODE of exactly these (R86). -/
theorem decode_frameWord (n : BitVec 3) (f : Frame) : decode (.frame (frameWord n f)) = .ok (.decode n f) := by
  rw [decode, countOfWord_frameWord, frameOfWord_frameWord]

/-- Outside `Decoding` a step plays the front of the stimulus, and the rest is still to come (entry 2). -/
theorem step_of_front {s : State} {m : Move} {rest : List Move} (hc : s.host.coord ≠ .decoding)
    (hs : s.env.stimulus = m :: rest) : step s = playMove m (withStimulus rest s) := by
  rw [step, nextMove, if_neg hc, hs]
  rfl

/-- A step whose move is an input word: `line_i` takes its level, the block moves on the word as the ports show it, and
the host's edge follows (R7, R171). -/
theorem step_of_input {s : State} {w : BitVec 3} {rest : List Move} (hc : s.host.coord ≠ .decoding)
    (hs : s.env.stimulus = .input w :: rest) :
    step s = andThen (blockEdge (portWord w s) (withLine (w.getLsbD 0) (withStimulus rest s)))
      (fun t => .next (hostEdge t)) :=
  step_of_front hc hs

/-- Settles O5, a clause per kind of move: the step plays the move, and the move runs what it decodes to. -/
theorem stepRunsTheDecodedInstruction : Obligations.StepRunsTheDecodedInstruction := by
  intro s rest hc
  refine ⟨?command, ?noCommand, ?call, ?wire, ?observe⟩
  case command =>
    intro w i hs hd
    rw [step_of_input hc hs, blockEdge_of_command hd]
  case noCommand =>
    intro w i hs hd hp
    have hphase : decodePhase (withLine (w.getLsbD 0) (withStimulus rest s)).eng.phase = .ok i := hp
    rw [step_of_input hc hs, blockEdge_of_noCommand hd, phaseEdge_of_decoded hphase]
    rfl
  case call =>
    intro a i hs hd
    exact (step_of_front hc hs).trans (apiCall_of_decoded hd _)
  case wire =>
    intro l i hs hd
    obtain rfl : decodeWire l = i := Except.ok.inj hd
    exact step_of_front hc hs
  case observe =>
    intro i hs hd
    obtain rfl : Instr.decode s.asm.count (memFrame s.asm.buf) = i :=
      Except.ok.inj ((decode_frameWord _ _).symm.trans hd)
    exact step_of_front hc hs

end Sys2Proof.Machine
end

section
/-! PROOFS of the state family, the rules: what the operations leave alone, where the line level is not read, and what
an edge does to the frame (10_state R20, R34; 20_memory R66; 41_byte_assembler R140). -/

namespace Sys2Proof.Machine

/-! ### The line outputs and the reset values -/

/-- Settles O8: the reset state is the table's row by row, and RESET writes the same two records. -/
theorem resetValuesAreTheTable : Obligations.ResetValuesAreTheTable := by
  unfold Obligations.ResetValuesAreTheTable
  have hport : (resultPort State.reset).result = .fail .incompleteFrame := by decide
  rw [hport]
  exact ⟨rfl, rfl, rfl, rfl, rfl, rfl, rfl, rfl, rfl, fun _ => rfl, rfl, rfl, rfl, rfl, rfl, rfl, rfl,
    fun _ => ⟨_, rfl, rfl, rfl⟩⟩

/-- Settles O23, a phase at a time: the outputs compare `phase` with the two codes and read nothing else. -/
theorem lineOutputsByPhase : Obligations.LineOutputsByPhase := by
  intro s
  refine ⟨fun hidle => ?_, fun hlow => ?_, fun hidle hlow => ?_⟩
  · simp [lineOe, lineO, hidle]
  · simp [lineOe, lineO, hlow]
  · simp [lineOe, lineO, hidle, hlow]

/-! ### Which operation writes what -/

/-- The operations by the word that selects them: an input word, a phase code, an event word, a frame word, a caller's
word, a wire symbol (R80, R93). -/
theorem instr_kinds (i : Instr) :
    (i = .reset ∨ i = .start) ∨ (∃ c, decodePhase c = .ok i) ∨ (∃ d, i = .append d) ∨ (∃ n f, i = .decode n f) ∨
      (∃ a, decodeApi a = .ok i) ∨ (i = .sym0 ∨ i = .sym1) := by
  cases i with
  | reset => exact .inl (.inl rfl)
  | start => exact .inl (.inr rfl)
  | idle => exact .inr (.inl ⟨0#4, rfl⟩)
  | initLow => exact .inr (.inl ⟨1#4, rfl⟩)
  | ackWaitH1 => exact .inr (.inl ⟨2#4, rfl⟩)
  | ackWaitL => exact .inr (.inl ⟨3#4, rfl⟩)
  | ackWaitH2 => exact .inr (.inl ⟨4#4, rfl⟩)
  | bitWaitL => exact .inr (.inl ⟨5#4, rfl⟩)
  | bitWaitH => exact .inr (.inl ⟨6#4, rfl⟩)
  | sampleDelay => exact .inr (.inl ⟨7#4, rfl⟩)
  | sample => exact .inr (.inl ⟨8#4, rfl⟩)
  | append d => exact .inr (.inr (.inl ⟨d, rfl⟩))
  | decode n f => exact .inr (.inr (.inr (.inl ⟨n, f, rfl⟩)))
  | readTemperature force => exact .inr (.inr (.inr (.inr (.inl ⟨apiWord 1#2 force, by cases force <;> rfl⟩))))
  | readHumidity force => exact .inr (.inr (.inr (.inr (.inl ⟨apiWord 2#2 force, by cases force <;> rfl⟩))))
  | readBoth force => exact .inr (.inr (.inr (.inr (.inl ⟨apiWord 3#2 force, by cases force <;> rfl⟩))))
  | sym0 => exact .inr (.inr (.inr (.inr (.inr (.inl rfl)))))
  | sym1 => exact .inr (.inr (.inr (.inr (.inr (.inr rfl)))))

/-- An input word encodes RESET or START (R81). -/
theorem decodeInput_kinds {w : BitVec 3} {i : Instr} (h : decodeInput w = .ok i) : i = .reset ∨ i = .start := by
  unfold decodeInput at h
  split at h
  · cases h; exact .inl rfl
  · split at h <;> cases h
    exact .inr rfl

/-- A wire symbol writes the level on `line_i` and nothing else (R83). -/
theorem exec_decodeWire (l : BitVec 1) (s : State) :
    exec (decodeWire l) s = .next (withLine (l.getLsbD 0) s) := by
  unfold decodeWire
  cases l.getLsbD 0 <;> rfl

/-- Settles O51, a kind of operation at a time: each writes one agent's part (RESET and START two), and a part that
changed is therefore one the operation writes. -/
theorem eachAgentWritesItsOwn : Obligations.EachAgentWritesItsOwn := by
  intro i s t h
  rcases instr_kinds i with hi | ⟨c, hc⟩ | ⟨d, rfl⟩ | ⟨n, f, rfl⟩ | ⟨a, ha⟩ | hi
  · have hw : i = .reset ∨ i = .start ∨ ∃ c, decodePhase c = .ok i := hi.elim .inl (.inr ∘ .inl)
    have hframe : t.host = s.host ∧ t.env = s.env ∧ t.par = s.par := by
      rcases hi with rfl | rfl <;> cases h <;> exact ⟨rfl, rfl, rfl⟩
    obtain ⟨hhost, henv, hpar⟩ := hframe
    exact ⟨fun _ => hi.elim .inl (.inr ∘ .inl), fun _ => hw, fun hne => absurd hhost hne, fun hne => absurd henv hne,
      by rw [henv], hpar⟩
  · obtain ⟨e, he⟩ := exec_phase hc s
    cases he.symm.trans h
    simpa using fun _ => .inr (.inr ⟨c, hc⟩)
  · rw [exec_append_frame h]
    simp
  · cases h
    simp
  · obtain ⟨q, force, hq⟩ := decodeApi_read ha s
    obtain ⟨heng, hasm, henv, hpar, -⟩ := beginRead_frame (hq.symm.trans h)
    simp only [heng, hasm, henv, hpar]
    simpa using fun _ => .inr ⟨a, ha⟩
  · rcases hi with rfl | rfl <;> cases h <;> simp

/-! ### The phase operations by kind -/

/-- The phase code and its operation, the four waits that only move the phase on taken together (R82, R115 to R118). -/
theorem decodePhase_kinds {c : BitVec 4} {i : Instr} (h : decodePhase c = .ok i) :
    (c = Phase.idle ∧ i = .idle) ∨ (c = Phase.initLow ∧ i = .initLow) ∨ (c = Phase.sampleDelay ∧ i = .sampleDelay) ∨
    (c = Phase.bitWaitH ∧ i = .bitWaitH) ∨ (c = Phase.sample ∧ i = .sample) ∨
    ((c ≠ Phase.initLow ∧ c ≠ Phase.sampleDelay) ∧ ∃ (want : Bool) (target : BitVec 4), target.toNat ≤ 8 ∧
      target ≠ Phase.idle ∧ ∀ s, exec i s = .next (waitLevel want target s)) := by
  have code : ∀ {k : BitVec 4}, c.toNat = k.toNat → c = k := BitVec.eq_of_toNat_eq
  have other : ∀ {k : BitVec 4}, c.toNat ≠ k.toNat → c ≠ k := fun hk e => hk (congrArg BitVec.toNat e)
  unfold decodePhase at h
  split at h <;> cases h
  case h_1 hc => exact .inl ⟨code hc, rfl⟩
  case h_2 hc => exact .inr (.inl ⟨code hc, rfl⟩)
  case h_8 hc => exact .inr (.inr (.inl ⟨code hc, rfl⟩))
  case h_7 hc => exact .inr (.inr (.inr (.inl ⟨code hc, rfl⟩)))
  case h_9 hc => exact .inr (.inr (.inr (.inr (.inl ⟨code hc, rfl⟩))))
  all_goals
    rename_i hc
    exact .inr (.inr (.inr (.inr (.inr ⟨⟨other (by rw [hc]; decide), other (by rw [hc]; decide)⟩, _, _,
      by decide, by decide, fun _ => rfl⟩))))

/-- BIT_WAIT_H at a high line goes to the sample delay with `cyc` at 0, and stays otherwise (R119). -/
theorem exec_bitWaitH (s : State) :
    exec .bitWaitH s = .next (bif s.env.lineI then
      s.withEng { s.eng.noEvent with phase := Phase.sampleDelay, cyc := 0#4 } else s.withEng s.eng.noEvent) := by
  change execBitWaitH s = _
  unfold execBitWaitH
  cases s.env.lineI <;> rfl

/-! ### The event register -/

/-- The waits and the timed phases clear the event bit and keep the event word (R26). -/
theorem waitLevel_event (want : Bool) (target : BitVec 4) (s : State) :
    (waitLevel want target s).eng.evValid = false ∧ (waitLevel want target s).eng.evData = s.eng.evData := by
  unfold waitLevel
  split <;> exact ⟨rfl, rfl⟩

theorem countEdges_event (n : Nat) (target : BitVec 4) (s : State) :
    (countEdges n target s).eng.evValid = false ∧ (countEdges n target s).eng.evData = s.eng.evData := by
  unfold countEdges
  split <;> exact ⟨rfl, rfl⟩

/-- A SAMPLE inside a byte shifts the level in and counts it (R121). -/
theorem exec_sample_inside {s : State} (h : s.eng.bitcnt ≠ 7#3) :
    exec .sample s = .next (s.withEng { s.eng.noEvent with
      shreg := shiftIn s.eng.shreg s.env.lineI, bitcnt := s.eng.bitcnt + 1#3, phase := Phase.bitWaitL }) := by
  simp [exec, execSample, h]

/-- A SAMPLE that completes a byte before the fifth emits it and waits for the next bit (R121). -/
theorem exec_sample_byte {s : State} (h : s.eng.bitcnt = 7#3) (hb : s.eng.bytecnt ≠ 4#3) :
    exec .sample s = .next (s.withEng { s.eng.emit (shiftIn s.eng.shreg s.env.lineI) with
      shreg := shiftIn s.eng.shreg s.env.lineI, bitcnt := 0#3, bytecnt := s.eng.bytecnt + 1#3,
      phase := Phase.bitWaitL }) := by
  simp [exec, execSample, h, hb]

/-- A SAMPLE that completes the fifth byte emits it and ends the frame (R121). -/
theorem exec_sample_frame {s : State} (h : s.eng.bitcnt = 7#3) (hb : s.eng.bytecnt = 4#3) :
    exec .sample s = .next (s.withEng { s.eng.emit (shiftIn s.eng.shreg s.env.lineI) with
      shreg := shiftIn s.eng.shreg s.env.lineI, bitcnt := 0#3, bytecnt := 0#3, phase := Phase.idle }) := by
  simp [exec, execSample, h, hb]

/-- A completing SAMPLE emits the assembled byte, which is also the new `shreg`, and starts the next byte (R26, R121). -/
theorem exec_sample_completing {s : State} (h : s.eng.bitcnt = 7#3) :
    ∃ t, exec .sample s = .next t ∧ t.eng.evValid = true ∧ t.eng.evData = shiftIn s.eng.shreg s.env.lineI ∧
      t.eng.shreg = shiftIn s.eng.shreg s.env.lineI ∧ t.eng.bitcnt = 0#3 ∧ t.asm = s.asm := by
  by_cases hb : s.eng.bytecnt = 4#3
  · exact ⟨_, exec_sample_frame h hb, rfl, rfl, rfl, rfl, rfl⟩
  · exact ⟨_, exec_sample_byte h hb, rfl, rfl, rfl, rfl, rfl⟩

/-- A phase operation other than a completing SAMPLE clears the event bit and keeps the event word (R26, R110). -/
theorem exec_phase_event {c : BitVec 4} {i : Instr} {s t : State} (hd : decodePhase c = .ok i)
    (h : exec i s = .next t) (hi : ¬ (i = .sample ∧ s.eng.bitcnt = 7#3)) :
    t.eng.evValid = false ∧ t.eng.evData = s.eng.evData := by
  rcases decodePhase_kinds hd with
    ⟨-, rfl⟩ | ⟨-, rfl⟩ | ⟨-, rfl⟩ | ⟨-, rfl⟩ | ⟨-, rfl⟩ | ⟨-, want, target, -, -, hx⟩
  · cases h; exact ⟨rfl, rfl⟩
  · cases h; exact countEdges_event _ _ s
  · cases h; exact countEdges_event _ _ s
  · cases (exec_bitWaitH s).symm.trans h
    cases s.env.lineI <;> exact ⟨rfl, rfl⟩
  · cases (exec_sample_inside fun hb => hi ⟨rfl, hb⟩).symm.trans h
    exact ⟨rfl, rfl⟩
  · cases (hx s).symm.trans h
    exact waitLevel_event want target s

/-- Settles O16: the operations that wait or count clear the bit, and SAMPLE emits exactly at `bitcnt = 7`. -/
theorem onlyACompletingSampleEmits : Obligations.OnlyACompletingSampleEmits := by
  intro c i s t hd h
  refine ⟨exec_phase_event hd h, ?_⟩
  rintro ⟨rfl, hb⟩
  obtain ⟨u, hu, hvalid, hdata, hshreg, -⟩ := exec_sample_completing hb
  cases hu.symm.trans h
  exact ⟨hvalid, hdata.trans hshreg.symm⟩

/-! ### A byte, bit by bit -/

/-- The shift of R121 bit by bit: the level enters at bit 0, and bit `i` moves to bit `i + 1`. -/
theorem shiftIn_getElem_zero (sh : Byte) (l : Bool) : (shiftIn sh l)[0] = l :=
  (BitVec.getElem_append (n := 7) (m := 1) (by decide)).trans (by simp)

theorem shiftIn_getElem_succ (sh : Byte) (l : Bool) {i : Nat} (hi : i < 7) : (shiftIn sh l)[i + 1] = sh[i] :=
  (BitVec.getElem_append (n := 7) (m := 1) (by omega)).trans
    (by simp [BitVec.getLsbD_eq_getElem (show i < 8 by omega)])

/-- Eight levels shifted in, bit 7 first, push out whatever `shreg` held and leave the byte (R61, R121). -/
theorem foldl_shiftIn_byteBits (sh b : Byte) : (byteBits b).foldl shiftIn sh = b := by
  refine BitVec.eq_of_getElem_eq fun i hi => ?_
  simp only [byteBits, List.foldl]
  interval_cases i <;> simp [shiftIn_getElem_zero, shiftIn_getElem_succ]

/-- SAMPLEs compose. -/
theorem sampleLevels_append (ls ls' : List Bool) (s : State) :
    sampleLevels (ls ++ ls') s = andThen (sampleLevels ls s) (sampleLevels ls') := by
  induction ls generalizing s with
  | nil => rfl
  | cons l ls ih =>
    simp only [List.cons_append, sampleLevels]
    cases exec .sample (s.withEnv { s.env with lineI := l }) with
    | next t => exact ih t
    | fault r => rfl
    | refused r => rfl

/-- SAMPLEs that stay inside a byte shift their levels in and count them, and emit nothing (R121). -/
theorem sampleLevels_inside (ls : List Bool) (s : State) (h : s.eng.bitcnt.toNat + ls.length < 8) :
    ∃ t, sampleLevels ls s = .next t ∧ t.eng.evValid = (ls.isEmpty && s.eng.evValid) ∧
      t.eng.evData = s.eng.evData ∧ t.eng.bytecnt = s.eng.bytecnt ∧
      t.eng.bitcnt.toNat = s.eng.bitcnt.toNat + ls.length ∧ t.eng.shreg = ls.foldl shiftIn s.eng.shreg ∧
      t.asm = s.asm := by
  induction ls generalizing s with
  | nil => exact ⟨s, rfl, by simp, rfl, rfl, rfl, rfl, rfl⟩
  | cons l ls ih =>
    rw [List.length_cons] at h
    have hinside : s.eng.bitcnt ≠ 7#3 := by bv_omega
    have hcount : (s.eng.bitcnt + 1#3).toNat = s.eng.bitcnt.toNat + 1 := by bv_omega
    obtain ⟨t, ht, hvalid, hdata, hbyte, hbit, hshreg, hasm⟩ := ih ((withLine l s).withEng { s.eng.noEvent with
      shreg := shiftIn s.eng.shreg l, bitcnt := s.eng.bitcnt + 1#3, phase := Phase.bitWaitL })
      (by simp only [State.withEng_eng, hcount]; omega)
    simp only [State.withEng_eng, hcount] at hbit
    refine ⟨t, ?_, by simpa using hvalid, hdata, hbyte, by rw [hbit, List.length_cons]; omega, hshreg, hasm⟩
    rw [sampleLevels, exec_sample_inside (by exact hinside)]
    exact ht

/-- Settles O18: fewer than eight SAMPLEs stay inside the byte; the eighth finds `bitcnt = 7` and emits the levels
folded into `shreg`, which are the byte. -/
theorem eightSamplesDeliverAByte : Obligations.EightSamplesDeliverAByte := by
  intro s b h0
  refine ⟨?eight, ?fewer⟩
  case eight =>
    have hbits : byteBits b = (byteBits b).take 7 ++ [b.getLsbD 0] := rfl
    obtain ⟨u, hu, -, -, -, hbit, hshreg, hasm⟩ :=
      sampleLevels_inside ((byteBits b).take 7) s (by rw [h0]; simp [byteBits])
    have h7 : u.eng.bitcnt = 7#3 := BitVec.eq_of_toNat_eq (by rw [hbit, h0]; rfl)
    obtain ⟨t, ht, hvalid, hdata, hsh, hcnt, htasm⟩ :=
      exec_sample_completing (s := withLine (b.getLsbD 0) u) h7
    have hbyte : shiftIn u.eng.shreg (b.getLsbD 0) = b := by
      rw [hshreg]; exact foldl_shiftIn_byteBits s.eng.shreg b
    refine ⟨t, ?_, hvalid, hdata.trans hbyte, hsh.trans hbyte, hcnt, htasm.trans hasm⟩
    rw [hbits, sampleLevels_append, hu, andThen_next, sampleLevels]
    change andThen (exec .sample (withLine (b.getLsbD 0) u)) _ = _
    rw [ht]
    rfl
  case fewer =>
    intro k hk0 hk8
    have hlen : ((byteBits b).take k).length = k := by simp [byteBits]; omega
    obtain ⟨t, ht, hvalid, hdata, hbyte, hbit, -⟩ :=
      sampleLevels_inside ((byteBits b).take k) s (by rw [h0, hlen]; simpa using hk8)
    refine ⟨t, ht, ?_, hdata, hbyte, by rw [hbit, h0, hlen]; simp⟩
    have hne : (byteBits b).take k ≠ [] := fun e => by rw [e] at hlen; simp at hlen; omega
    simp [hvalid, hne]

end Sys2Proof.Machine
end

section
/-! PROOFS of the state family, the edges that do not read the line (10_state R34, 40_timing_engine R113, R114, R120). -/

namespace Sys2Proof.Machine

/-- An operation that does not read `line_i`: with another level there, it ends alike but for that level (R34). -/
def LineBlind (op : State → Host.Outcome State Fault Refusal) : Prop :=
  ∀ (l : Bool) (s t : State), op s = .next t → op (withLine l s) = .next (withLine l t)

/-- The input-selected operations load constants (R111, R112). -/
theorem lineBlind_of_decodeInput {w : BitVec 3} {i : Instr} (h : decodeInput w = .ok i) : LineBlind (exec i) := by
  intro l s t ht
  rcases decodeInput_kinds h with rfl | rfl <;> (cases ht; rfl)

/-- The phases that rest or count edges do not look at the line (R113, R114, R120). -/
theorem lineBlind_of_decodePhase {c : BitVec 4} {i : Instr} (h : decodePhase c = .ok i)
    (hc : c = Phase.idle ∨ c = Phase.initLow ∨ c = Phase.sampleDelay) : LineBlind (exec i) := by
  intro l s t ht
  rcases hc with rfl | rfl | rfl <;> (cases h; cases ht; rfl)

/-- APPEND reads the event word, not the line (R140). -/
theorem lineBlind_append (d : Byte) : LineBlind (exec (.append d)) := by
  intro l s t h
  change execAppend d s = _ at h
  change execAppend d (withLine l s) = _
  unfold execAppend at h ⊢
  split at h
  case isTrue hv =>
    rw [if_pos (show (withLine l s).eng.evValid = true from hv)]
    split at h
    case h_1 m hm =>
      cases h
      rw [show memWrite (withLine l s).asm.buf (withLine l s).asm.count.toNat d = some m from hm]
      rfl
    case h_2 => cases h
  case isFalse hv =>
    cases h
    exact if_neg hv

/-- Beside APPEND too, the edge of such a phase is blind to the line. -/
theorem phaseEdge_withLine {l : Bool} {s t : State}
    (hc : s.eng.phase = Phase.idle ∨ s.eng.phase = Phase.initLow ∨ s.eng.phase = Phase.sampleDelay)
    (h : phaseEdge s = .next t) : phaseEdge (withLine l s) = .next (withLine l t) := by
  obtain ⟨i, hi, ⟨hv, ht⟩ | ⟨hv, u, hu, ht⟩⟩ := phaseEdge_cases h
  · rw [phaseEdge_of_decoded (s := withLine l s) hi, if_neg (by simpa [withLine] using hv)]
    exact lineBlind_of_decodePhase hi hc l s t ht
  · rw [phaseEdge_of_decoded (s := withLine l s) hi, if_pos (by simpa [withLine] using hv)]
    exact andThen_eq_next.mpr ⟨withLine l u, lineBlind_append _ l s u hu, lineBlind_of_decodePhase hi hc l u t ht⟩

/-- The host's edge does not look at the line. -/
theorem hostEdge_withLine (l : Bool) (s : State) : hostEdge (withLine l s) = withLine l (hostEdge s) := by
  unfold hostEdge
  rw [show (withLine l s).host.coord = s.host.coord from rfl]
  cases s.host.coord <;> rfl

/-! ### The input word and its line bit -/

theorem getLsbD_zero_append_line (w : BitVec 2) (l : Bool) : (w ++ BitVec.ofBool l).getLsbD 0 = l := by
  revert w l; decide

/-- The line bit selects no operation, also where the host raises `start` (R81, R171). -/
theorem decodeInput_portWord_line (w : BitVec 2) (l l' : Bool) (s : State) :
    decodeInput (portWord (w ++ BitVec.ofBool l) s) = decodeInput (portWord (w ++ BitVec.ofBool l') s) := by
  unfold portWord
  split <;> (revert w l l'; decide)

/-- A word with `rst` or `start` set is a command (R81). -/
theorem decodeInput_portWord_command {w : BitVec 2} (hw : w ≠ 0#2) (l : Bool) (s : State) (e : DecodeError) :
    decodeInput (portWord (w ++ BitVec.ofBool l) s) ≠ .error e := by
  have key : ∀ (w : BitVec 2) (l : Bool), w ≠ 0#2 →
      (decodeInput (w ++ BitVec.ofBool l)).isOk ∧ (decodeInput (w ++ BitVec.ofBool l ||| 0b010#3)).isOk := by decide
  intro he
  by_cases hc : s.host.coord = .triggering
  · rw [portWord_triggering _ hc] at he
    exact absurd (key w l hw).2 (by rw [he]; exact Bool.false_ne_true)
  · rw [portWord_otherwise _ hc] at he
    exact absurd (key w l hw).1 (by rw [he]; exact Bool.false_ne_true)

/-- The block's part of an edge that does not read the line. -/
theorem blockEdge_portWord_withLine {w : BitVec 2} {l l' : Bool} {r s t : State}
    (hr : w ≠ 0#2 ∨ s.eng.phase = Phase.idle ∨ s.eng.phase = Phase.initLow ∨ s.eng.phase = Phase.sampleDelay)
    (h : blockEdge (portWord (w ++ BitVec.ofBool l) r) s = .next t) :
    blockEdge (portWord (w ++ BitVec.ofBool l') r) (withLine l' s) = .next (withLine l' t) := by
  cases hd : decodeInput (portWord (w ++ BitVec.ofBool l) r) with
  | ok i =>
    rw [blockEdge_of_command hd] at h
    rw [blockEdge_of_command ((decodeInput_portWord_line w l' l r).trans hd)]
    exact lineBlind_of_decodeInput hd l' s t h
  | error e =>
    have hphase := hr.resolve_left fun hw => decodeInput_portWord_command hw l r e hd
    rw [blockEdge_of_noCommand hd] at h
    rw [blockEdge_of_noCommand ((decodeInput_portWord_line w l' l r).trans hd)]
    exact phaseEdge_withLine hphase h

/-- Settles O22: the two edges run the same operation, which is blind to the line, and so is the host's edge. -/
theorem lineIgnoredWhereNotRead : Obligations.LineIgnoredWhereNotRead := by
  intro s t l l' w rest hc hr h
  have hstep := step_of_input (s := withStimulus (.input (w ++ BitVec.ofBool l) :: rest) s) hc rfl
  have hstep' := step_of_input (s := withStimulus (.input (w ++ BitVec.ofBool l') :: rest) s) hc rfl
  rw [getLsbD_zero_append_line] at hstep hstep'
  rw [hstep] at h
  obtain ⟨u, hu, ht⟩ := andThen_eq_next.mp h
  cases ht
  rw [hstep']
  exact andThen_eq_next.mpr ⟨withLine l' u,
    blockEdge_portWord_withLine (r := s) (s := withLine l (withStimulus rest s)) hr hu, by rw [hostEdge_withLine]⟩

end Sys2Proof.Machine
end

section
/-! PROOFS of the state family, the block's part of the invariant: what RESET and START establish, what the engine's
operations and APPEND keep (10_state R22, R37, R38; 20_memory R66; 41_byte_assembler R140). -/

namespace Sys2Proof.Machine

/-! ### The counter `cyc` -/

theorem Params.wellFormed_iff {p : Params} :
    p.wellFormed = true ↔ (1 ≤ p.nSettle ∧ p.nSettle ≤ 16) ∧ 1 ≤ p.nSampleDelay ∧ p.nSampleDelay ≤ 16 := by
  simp [Params.wellFormed, and_assoc]

/-- The value of `cyc` a phase admits: 0 outside the timed phases, below the phase's length inside (R22). -/
structure CycFits (p : Params) (c cyc : BitVec 4) : Prop where
  zero : c ≠ Phase.initLow → c ≠ Phase.sampleDelay → cyc = 0#4
  settle : c = Phase.initLow → cyc.toNat < p.nSettle
  delay : c = Phase.sampleDelay → cyc.toNat < p.nSampleDelay

theorem BlockInv.cycFits {s : State} (h : BlockInv s) : CycFits s.par s.eng.phase s.eng.cyc :=
  ⟨h.cyc_zero, h.cyc_settle, h.cyc_delay⟩

/-- Every phase may begin at 0. -/
theorem cycFits_zero {p : Params} (hp : p.wellFormed = true) (c : BitVec 4) : CycFits p c 0#4 := by
  obtain ⟨⟨hs, -⟩, hd, -⟩ := Params.wellFormed_iff.mp hp
  exact ⟨fun _ _ => rfl, fun _ => hs, fun _ => hd⟩

/-- Counting below a length of at most 16 does not wrap. -/
theorem cyc_succ_lt {cyc : BitVec 4} {n : Nat} (hlt : cyc.toNat < n) (hn : n ≤ 16) (hne : cyc.toNat + 1 ≠ n) :
    (cyc + 1#4).toNat < n := by
  bv_omega

/-! ### The two forms of the block's part -/

/-- In `P_IDLE` the counters are at 0 and the frame is empty, complete, or complete but for the pending byte. -/
theorem blockInv_of_idle {s : State} (hi : s.eng.phase = Phase.idle) (hcyc : s.eng.cyc = 0#4)
    (hbyte : s.eng.bytecnt = 0#3) (hbit : s.eng.bitcnt = 0#3)
    (hcount : (s.eng.evValid = true ∧ s.asm.count = 4#3) ∨
      (s.eng.evValid = false ∧ (s.asm.count = 0#3 ∨ s.asm.count = 5#3))) : BlockInv s where
  phase_legal := by rw [hi]; decide
  bytecnt_le := by rw [hbyte]; decide
  count_le := by rcases hcount with ⟨-, h⟩ | ⟨-, h | h⟩ <;> rw [h] <;> decide
  cyc_zero _ _ := hcyc
  cyc_settle h := by rw [hi] at h; exact absurd h (by decide)
  cyc_delay h := by rw [hi] at h; exact absurd h (by decide)
  count_quiet hne := absurd hi hne
  count_event hne := absurd hi hne
  idle_counters _ := ⟨hbyte, hbit⟩
  idle_count _ := hcount

/-- In every other phase `count` and the pending event make up `bytecnt` (R38). -/
theorem blockInv_of_active {s : State} (hne : s.eng.phase ≠ Phase.idle) (hlegal : s.eng.phase.toNat ≤ 8)
    (hcyc : CycFits s.par s.eng.phase s.eng.cyc) (hbyte : s.eng.bytecnt.toNat ≤ 4)
    (hcount : s.asm.count.toNat + s.eng.evValid.toNat = s.eng.bytecnt.toNat) : BlockInv s where
  phase_legal := hlegal
  bytecnt_le := hbyte
  count_le := by omega
  cyc_zero := hcyc.zero
  cyc_settle := hcyc.settle
  cyc_delay := hcyc.delay
  count_quiet _ hv := BitVec.eq_of_toNat_eq (by simpa [hv] using hcount)
  count_event _ hv := by simpa [hv] using hcount
  idle_counters hi := absurd hi hne
  idle_count hi := absurd hi hne

theorem BlockInv.count_active {s : State} (h : BlockInv s) (hne : s.eng.phase ≠ Phase.idle) :
    s.asm.count.toNat + s.eng.evValid.toNat = s.eng.bytecnt.toNat := by
  cases hv : s.eng.evValid with
  | false => simp [h.count_quiet hne hv]
  | true => simpa using h.count_event hne hv

/-! ### Reset states -/

/-- RESET establishes the block's part of the invariant (R37). -/
theorem blockInv_of_reset {s : State} (he : s.eng = Engine.reset) (ha : s.asm = Assembler.cleared) : BlockInv s := by
  apply blockInv_of_idle <;> simp [he, ha, Engine.reset, Assembler.cleared]

/-- START establishes it at the first cycle of the initiation pulse (R112). -/
theorem blockInv_of_start {s : State} (hp : s.par.wellFormed = true)
    (he : s.eng = { Engine.reset with phase := Phase.initLow }) (ha : s.asm = Assembler.cleared) : BlockInv s := by
  have hcyc : CycFits s.par s.eng.phase s.eng.cyc := by rw [he]; exact cycFits_zero hp _
  apply blockInv_of_active _ _ hcyc <;> simp [he, ha, Engine.reset, Assembler.cleared]

/-- The cleared buffer lists no cell (R141). -/
theorem bufferInv_of_cleared {s : State} (ha : s.asm = Assembler.cleared) : BufferInv s := by
  constructor <;> rw [ha]
  · rfl
  · exact fun _ _ => rfl

/-- Settles O48: the block as RESET leaves it, and a host with no call, no wait and no reading. -/
theorem invariantAtReset : Obligations.InvariantAtReset where
  params := by decide
  block := blockInv_of_reset rfl rfl
  buffer := bufferInv_of_cleared rfl
  host :=
    { idle_no_call := ⟨fun _ => rfl, fun _ => rfl⟩
      wait_left := by intro h; cases h
      ts_past := by intro r h; cases h }

/-! ### The engine's operations keep the block's part

Every phase operation overwrites the event bit, so it is enough to look at states with the bit clear: with the pending
byte stored by APPEND and the bit dropped, `count = bytecnt` holds outside `P_IDLE`. -/

theorem Engine.noEvent_of_quiet {e : Engine} (h : e.evValid = false) : e.noEvent = e := by
  cases e
  cases h
  rfl

/-- IDLE in a quiet `P_IDLE` changes nothing (R113). -/
theorem exec_idle_of_quiet {s : State} (hi : s.eng.phase = Phase.idle) (hq : s.eng.evValid = false) :
    exec .idle s = .next s := by
  change Host.Outcome.next (s.withEng { s.eng.noEvent with phase := Phase.idle }) = _
  rw [Engine.noEvent_of_quiet hq, ← hi]
  rfl

/-- A phase operation does not read the event bit (R26, R110). -/
theorem exec_phase_noEvent {c : BitVec 4} {i : Instr} (hd : decodePhase c = .ok i) (s : State) :
    exec i (s.withEng s.eng.noEvent) = exec i s := by
  unfold decodePhase at hd
  split at hd <;> cases hd <;> rfl

/-- The legal phase codes have an operation (R82). -/
theorem decodePhase_of_legal {c : BitVec 4} (h : c.toNat ≤ 8) : ∃ i, decodePhase c = .ok i := by
  rcases phase_cases h with rfl | rfl | rfl | rfl | rfl | rfl | rfl | rfl | rfl <;> exact ⟨_, rfl⟩

section
variable {s : State} (hp : s.par.wellFormed = true) (h : BlockInv s) (hq : s.eng.evValid = false)
  (hne : s.eng.phase ≠ Phase.idle)
include h hq hne

/-- Inside a frame, a quiet engine may take any registers that keep `bytecnt` and fit the phase. -/
theorem BlockInv.withEng_quiet {e : Engine} (hv : e.evValid = false) (hb : e.bytecnt = s.eng.bytecnt)
    (hlegal : e.phase.toNat ≤ 8) (hidle : e.phase ≠ Phase.idle) (hcyc : CycFits s.par e.phase e.cyc) :
    BlockInv (s.withEng e) :=
  blockInv_of_active hidle hlegal hcyc (by simpa [hb] using h.bytecnt_le)
    (by simpa [hb, hv, hq] using h.count_active hne)

include hp

/-- A wait stays in its phase or moves on, with `cyc` at 0 either way (R115 to R118). -/
theorem BlockInv.waitLevel {target : BitVec 4} (want : Bool) (hcyc : s.eng.cyc = 0#4) (hlegal : target.toNat ≤ 8)
    (hidle : target ≠ Phase.idle) : BlockInv (waitLevel want target s) := by
  have hfit : ∀ c, CycFits s.par c s.eng.cyc := fun c => hcyc ▸ cycFits_zero hp c
  by_cases hl : s.env.lineI = want
  · rw [waitLevel_seen target hl]
    exact h.withEng_quiet hq hne rfl rfl hlegal hidle (hfit _)
  · rw [waitLevel_unseen target hl]
    exact h.withEng_quiet hq hne rfl rfl h.phase_legal hne (hfit _)

/-- A timed phase counts on below its length or moves on with `cyc` at 0 (R114, R120). -/
theorem BlockInv.countEdges {n : Nat} {target : BitVec 4}
    (hfit : s.eng.cyc.toNat + 1 ≠ n → CycFits s.par s.eng.phase (s.eng.cyc + 1#4)) (hlegal : target.toNat ≤ 8)
    (hidle : target ≠ Phase.idle) : BlockInv (countEdges n target s) := by
  by_cases hlast : s.eng.cyc.toNat + 1 = n
  · rw [countEdges_last target hlast]
    exact h.withEng_quiet hq hne rfl rfl hlegal hidle (cycFits_zero hp _)
  · rw [countEdges_inside target hlast]
    exact h.withEng_quiet hq hne rfl rfl h.phase_legal hne (hfit hlast)

/-- A SAMPLE keeps `bytecnt`, or emits the byte that makes it one ahead of `count`; after the fifth byte the engine is
idle with that byte pending at `count = 4` (R121). -/
theorem BlockInv.exec_sample {t : State} (hcyc : s.eng.cyc = 0#4) (hx : exec .sample s = .next t) : BlockInv t := by
  have hcount : s.asm.count = s.eng.bytecnt := h.count_quiet hne hq
  have hle := h.bytecnt_le
  have hfit : CycFits s.par Phase.bitWaitL s.eng.cyc := hcyc ▸ cycFits_zero hp _
  by_cases hbit : s.eng.bitcnt = 7#3
  · by_cases hbyte : s.eng.bytecnt = 4#3
    · rw [exec_sample_frame hbit hbyte] at hx
      cases hx
      exact blockInv_of_idle rfl hcyc rfl rfl (.inl ⟨rfl, hcount.trans hbyte⟩)
    · rw [exec_sample_byte hbit hbyte] at hx
      cases hx
      have hlt : s.eng.bytecnt.toNat ≠ 4 := fun e => hbyte (BitVec.eq_of_toNat_eq e)
      have hsucc : (s.eng.bytecnt + 1#3).toNat = s.eng.bytecnt.toNat + 1 := by bv_omega
      refine blockInv_of_active (show Phase.bitWaitL ≠ Phase.idle by decide) (by simp) hfit ?_ ?_
      · simp only [State.withEng_eng, hsucc]; omega
      · simp [hsucc, hcount]
  · rw [exec_sample_inside hbit] at hx
    cases hx
    exact h.withEng_quiet hq hne rfl rfl (by simp) (show Phase.bitWaitL ≠ Phase.idle by decide) hfit

end

/-- The operation of the phase register keeps the block's part when no event is pending. -/
theorem BlockInv.exec_quiet {s t : State} {i : Instr} (hp : s.par.wellFormed = true) (h : BlockInv s)
    (hq : s.eng.evValid = false) (hd : decodePhase s.eng.phase = .ok i) (hx : exec i s = .next t) : BlockInv t := by
  obtain ⟨⟨-, hsettle⟩, -, hdelay⟩ := Params.wellFormed_iff.mp hp
  by_cases hne : s.eng.phase = Phase.idle
  case pos =>
    rw [hne] at hd
    cases hd
    cases (exec_idle_of_quiet hne hq).symm.trans hx
    exact h
  rcases decodePhase_kinds hd with
    ⟨hc, -⟩ | ⟨hc, rfl⟩ | ⟨hc, rfl⟩ | ⟨hc, rfl⟩ | ⟨hc, rfl⟩ | ⟨⟨hlow, hdel⟩, want, target, hlegal, hidle, hwait⟩
  · exact absurd hc hne
  · cases hx
    refine h.countEdges hp hq hne (fun hlast => ?_) (by decide) (by decide)
    have hlt := cyc_succ_lt (h.cyc_settle hc) hsettle hlast
    exact ⟨fun hn => absurd hc hn, fun _ => hlt, fun hc' => absurd (hc.symm.trans hc') (by decide)⟩
  · cases hx
    refine h.countEdges hp hq hne (fun hlast => ?_) (by decide) (by decide)
    have hlt := cyc_succ_lt (h.cyc_delay hc) hdelay hlast
    exact ⟨fun _ hn => absurd hc hn, fun hc' => absurd (hc.symm.trans hc') (by decide), fun _ => hlt⟩
  · have hcyc : s.eng.cyc = 0#4 := h.cyc_zero (by rw [hc]; decide) (by rw [hc]; decide)
    cases (exec_bitWaitH s).symm.trans hx
    cases s.env.lineI
    · exact h.withEng_quiet hq hne rfl rfl h.phase_legal hne (hcyc ▸ cycFits_zero hp _)
    · exact h.withEng_quiet hq hne rfl rfl (by simp) (show Phase.sampleDelay ≠ Phase.idle by decide)
        (cycFits_zero hp _)
  · exact h.exec_sample hp hq hne (h.cyc_zero (by rw [hc]; decide) (by rw [hc]; decide)) hx
  · cases (hwait s).symm.trans hx
    exact h.waitLevel hp hq hne want (h.cyc_zero hlow hdel) hlegal hidle

/-! ### An edge keeps the block's part and the buffer's -/

/-- APPEND stores the pending byte: with the event bit dropped, the invariant holds of `count` one higher (R38, R140). -/
theorem BlockInv.append {s u : State} {d : Byte} (h : BlockInv s) (hwf : Memory.wf s.asm.buf = true)
    (hv : s.eng.evValid = true) (hu : execAppend d s = .next u) : BlockInv (u.withEng u.eng.noEvent) := by
  obtain ⟨-, hcount, -, -, heng, -, -, hpar⟩ := execAppend_next hwf hv hu
  by_cases hi : s.eng.phase = Phase.idle
  · obtain ⟨hbyte, hbit⟩ := h.idle_counters hi
    have h4 : s.asm.count = 4#3 := by simpa [hv] using h.idle_count hi
    have h5 : u.asm.count = 5#3 := BitVec.eq_of_toNat_eq (by rw [hcount, h4]; rfl)
    have hcyc : s.eng.cyc = 0#4 := h.cyc_zero (by rw [hi]; decide) (by rw [hi]; decide)
    apply blockInv_of_idle <;> simp [heng, hi, hcyc, hbyte, hbit, h5]
  · have hsum := h.count_active hi
    rw [hv] at hsum
    refine blockInv_of_active ?_ ?_ ?_ ?_ ?_ <;> simp only [State.withEng_eng, heng, State.withEng_par, hpar,
      Engine.noEvent_phase, Engine.noEvent_cyc, Engine.noEvent_bytecnt, Engine.noEvent_evValid, State.withEng_asm]
    · exact hi
    · exact h.phase_legal
    · exact h.cycFits
    · exact h.bytecnt_le
    · simpa [hcount] using hsum

/-- With an event pending there is a cell left for it (R38). -/
theorem BlockInv.count_lt_of_event {s : State} (h : BlockInv s) (hv : s.eng.evValid = true) :
    s.asm.count.toNat < 5 := by
  by_cases hi : s.eng.phase = Phase.idle
  · have h4 : s.asm.count = 4#3 := by simpa [hv] using h.idle_count hi
    rw [h4]; decide
  · have hsum := h.count_event hi hv
    have hle := h.bytecnt_le
    omega

/-- So APPEND does not overrun (R142). -/
theorem BlockInv.append_answers {s : State} (h : BlockInv s) (hv : s.eng.evValid = true) (d : Byte) :
    ∃ u, execAppend d s = .next u := by
  obtain ⟨m, hm⟩ := Option.isSome_iff_exists.mp ((memWrite_isSome s.asm.buf _ d).mpr (h.count_lt_of_event hv))
  exact ⟨s.withAsm { buf := m, count := s.asm.count + 1#3 }, by rw [execAppend, if_pos hv, hm]⟩

/-- An edge without command answers: the phase is legal and there is room for the event. -/
theorem BlockInv.phaseEdge_answers {s : State} (h : BlockInv s) : ∃ t, phaseEdge s = .next t := by
  obtain ⟨i, hi⟩ := decodePhase_of_legal h.phase_legal
  rw [phaseEdge_of_decoded hi]
  by_cases hv : s.eng.evValid = true
  · obtain ⟨u, hu⟩ := h.append_answers hv s.eng.evData
    obtain ⟨e, he⟩ := exec_phase hi u
    exact ⟨u.withEng e, by rw [if_pos hv]; exact andThen_eq_next.mpr ⟨u, hu, he⟩⟩
  · obtain ⟨e, he⟩ := exec_phase hi s
    exact ⟨s.withEng e, by rw [if_neg hv, he]⟩

/-- An edge without command leaves the frame when no event is pending (R20). -/
theorem phaseEdge_asm_quiet {s t : State} (h : phaseEdge s = .next t) (hv : s.eng.evValid = false) :
    t.asm = s.asm := by
  obtain ⟨i, hi, ⟨-, ht⟩ | ⟨hv', -⟩⟩ := phaseEdge_cases h
  · obtain ⟨e, he⟩ := exec_phase hi s
    cases he.symm.trans ht
    rfl
  · cases hv.symm.trans hv'

/-- With an event pending it stores the event's byte in the cell `count` names (R66, R140). -/
theorem phaseEdge_asm_event {s t : State} (h : phaseEdge s = .next t) (hwf : Memory.wf s.asm.buf = true)
    (hv : s.eng.evValid = true) :
    t.asm.count.toNat = s.asm.count.toNat + 1 ∧
      ∀ a, byteAt t.asm.buf a = if a = s.asm.count.toNat then s.eng.evData else byteAt s.asm.buf a := by
  obtain ⟨i, hi, ⟨hv', -⟩ | ⟨-, u, hu, ht⟩⟩ := phaseEdge_cases h
  · cases hv.symm.trans hv'
  · obtain ⟨e, he⟩ := exec_phase hi u
    cases he.symm.trans ht
    obtain ⟨-, hcount, hbytes, -⟩ := execAppend_next hwf hv hu
    exact ⟨hcount, hbytes⟩

/-- An edge without command stores the pending byte, if any, and runs a phase operation on the quiet engine. -/
theorem BlockInv.phaseEdge {s t : State} (hp : s.par.wellFormed = true) (h : BlockInv s)
    (hwf : Memory.wf s.asm.buf = true) (ht : phaseEdge s = .next t) : BlockInv t := by
  obtain ⟨i, hi, ⟨hv, hx⟩ | ⟨hv, u, hu, hx⟩⟩ := phaseEdge_cases ht
  · exact h.exec_quiet hp hv hi hx
  · obtain ⟨-, -, -, -, heng, -, -, hpar⟩ := execAppend_next hwf hv hu
    refine (h.append hwf hv hu).exec_quiet (by simpa [hpar] using hp) rfl ?_ ((exec_phase_noEvent hi u).trans hx)
    rw [State.withEng_eng, heng]
    exact hi

/-- The buffer's part looks at the frame only. -/
theorem BufferInv.of_asm {s t : State} (h : BufferInv s) (ha : t.asm = s.asm) : BufferInv t :=
  ⟨by rw [ha]; exact h.canonical, by rw [ha]; exact h.rest_zero⟩

/-- The byte goes to the first of the cells that read 0 (R66). -/
theorem BufferInv.append {s u : State} {d : Byte} (h : BufferInv s) (hv : s.eng.evValid = true)
    (hu : execAppend d s = .next u) : BufferInv u := by
  obtain ⟨-, hcount, hbytes, hwf, -⟩ := execAppend_next h.canonical hv hu
  refine ⟨hwf, fun a hle => ?_⟩
  rw [hbytes a, if_neg (by omega)]
  exact h.rest_zero a (by omega)

theorem BufferInv.phaseEdge {s t : State} (h : BufferInv s) (ht : phaseEdge s = .next t) : BufferInv t := by
  obtain ⟨i, hi, ⟨-, hx⟩ | ⟨hv, u, hu, hx⟩⟩ := phaseEdge_cases ht
  · obtain ⟨e, he⟩ := exec_phase hi s
    cases he.symm.trans hx
    exact h.of_asm rfl
  · obtain ⟨e, he⟩ := exec_phase hi u
    cases he.symm.trans hx
    exact (h.append hv hu).of_asm rfl

end Sys2Proof.Machine
end

section
/-! PROOFS of the state family, the host's part of the invariant and the whole step (10_state R36, R38;
43_host_coordinator R170, R175, R186; 60_exceptions R205, R209). -/

namespace Sys2Proof.Machine

/-! ### The host's part -/

/-- The host's part looks at the host only. -/
theorem HostInv.of_host {s t : State} (h : HostInv s) (hh : t.host = s.host) : HostInv t :=
  ⟨by rw [hh]; exact h.idle_no_call, by rw [hh]; exact h.wait_left, by rw [hh]; exact h.ts_past⟩

/-- The clock moves on: a timestamp stays in the past (R186). -/
theorem HostInv.elapse {s t : State} (h : HostInv s) (ms : Nat)
    (hh : t.host = { s.host with nowMs := s.host.nowMs + ms }) : HostInv t := by
  refine ⟨by rw [hh]; exact h.idle_no_call, by rw [hh]; exact h.wait_left, fun r hr => ?_⟩
  rw [hh] at hr ⊢
  exact Nat.le_add_right_of_le (h.ts_past r hr)

/-- The host at the end of an edge of its wait: still `Waiting` with edges left, or `Decoding` (R174). -/
theorem hostInv_of_settleWait {s : State} {c : Coordinator} (hh : s.host = settleWait c) (hw : c.coord = .waiting)
    (hcall : c.call ≠ none) (hts : ∀ r, c.cache = some r → r.ts ≤ c.nowMs) : HostInv s := by
  have hpast : ∀ r, s.host.cache = some r → r.ts ≤ s.host.nowMs := by
    rw [hh, settleWait_cache]
    exact fun r hr => (hts r hr).trans (settleWait_nowMs_le c)
  by_cases hz : c.waitLeft = 0
  · rw [settleWait_zero hz] at hh
    exact ⟨by simp [hh, hcall], by simp [hh], hpast⟩
  · rw [settleWait_pos hz] at hh
    exact ⟨by simp [hh, hw, hcall], by rw [hh]; exact fun _ => Nat.pos_of_ne_zero hz, hpast⟩

/-- The host's edge loads the wait or counts it down, with the call in progress all along (R170, R173, R174). -/
theorem HostInv.hostEdge {s : State} (h : HostInv s) : HostInv (hostEdge s) := by
  have hcall : s.host.coord ≠ .idle → s.host.call ≠ none := fun hc hn => hc (h.idle_no_call.mpr hn)
  unfold Machine.hostEdge
  cases hc : s.host.coord with
  | idle => exact h
  | decoding => exact h
  | triggering => exact hostInv_of_settleWait rfl rfl (hcall (by rw [hc]; decide)) h.ts_past
  | waiting => exact hostInv_of_settleWait rfl hc (hcall (by rw [hc]; decide)) h.ts_past

/-- A public call is in progress from `Triggering` on; served from the cache it is over at once (R177 to R179). -/
theorem HostInv.beginRead {s t : State} {q : Request} {force : Bool} (h : HostInv s)
    (ht : beginRead q force s = .next t) : HostInv t := by
  rcases beginRead_cases q force s with ⟨-, -, hx⟩ | ⟨-, -, hx⟩ | ⟨-, hx⟩ <;> cases hx.symm.trans ht
  · exact ⟨by simp, by simp, h.ts_past⟩
  · exact ⟨h.idle_no_call, h.wait_left, h.ts_past⟩

/-! ### What the host remembers -/

/-- The end of an acquisition: a failure goes to the sink, a reading to the cache, stamped with the present (R175). -/
theorem finishAcquire_memory (s : State) :
    (∃ f, (resultPort s).result = .fail f ∧ (finishAcquire s).host.cache = s.host.cache ∧
      (finishAcquire s).host.sink = s.host.sink ++ [f]) ∨
    (∃ h tt, (resultPort s).result = .ok h tt ∧
      (finishAcquire s).host.cache = some ⟨tt.toInt, h.toNat, s.host.nowMs⟩ ∧
      (finishAcquire s).host.sink = s.host.sink) := by
  unfold finishAcquire
  rw [State.withHost_host, returnToCaller_cache, returnToCaller_sink]
  cases hr : (resultPort s).result with
  | fail f => exact .inl ⟨f, rfl, rfl, rfl⟩
  | ok h tt => exact .inr ⟨h, tt, rfl, rfl, rfl⟩

/-- The host is `Idle` again with no call, and a new reading's timestamp is the present (R176, D17). -/
theorem HostInv.finishAcquire {s : State} (h : HostInv s) : HostInv (finishAcquire s) := by
  have hcoord : (Machine.finishAcquire s).host.coord = .idle := returnToCaller_coord _
  have hcall : (Machine.finishAcquire s).host.call = none := returnToCaller_call _
  have hnow : (Machine.finishAcquire s).host.nowMs = s.host.nowMs :=
    (returnToCaller_nowMs _).trans (actOn_nowMs _ _)
  refine ⟨by simp [hcoord, hcall], by simp [hcoord], fun r hr => ?_⟩
  rw [hnow]
  rcases finishAcquire_memory s with ⟨f, -, hcache, -⟩ | ⟨hum, tt, -, hcache, -⟩
  · exact h.ts_past r (hcache ▸ hr)
  · cases hcache.symm.trans hr
    exact Nat.le_refl _

/-- A move beside the block: the engine, the frame and the parameters stay, the host remembers what it did, and what it
keeps of its own it goes on keeping. -/
structure BesideBlock (s t : State) : Prop where
  eng : t.eng = s.eng
  asm : t.asm = s.asm
  par : t.par = s.par
  cache : t.host.cache = s.host.cache
  sink : t.host.sink = s.host.sink
  host : HostInv s → HostInv t

theorem besideBlock_withEnv (s : State) (v : Env) : BesideBlock s (s.withEnv v) :=
  ⟨rfl, rfl, rfl, rfl, rfl, fun h => h.of_host rfl⟩

theorem besideBlock_elapse {s t : State} (ms : Nat) (he : t.eng = s.eng) (ha : t.asm = s.asm) (hp : t.par = s.par)
    (hh : t.host = { s.host with nowMs := s.host.nowMs + ms }) : BesideBlock s t :=
  ⟨he, ha, hp, by rw [hh], by rw [hh], fun h => h.elapse ms hh⟩

theorem besideBlock_beginRead {s t : State} {v : Env} {q : Request} {force : Bool}
    (h : beginRead q force (s.withEnv v) = .next t) : BesideBlock s t := by
  obtain ⟨heng, hasm, -, hpar, hcache, hsink, -⟩ := beginRead_frame h
  refine ⟨heng, hasm, hpar, hcache, hsink, fun hs => ?_⟩
  have henv : HostInv (s.withEnv v) := hs.of_host rfl
  exact henv.beginRead h

/-- A step ends an acquisition, or is a clock edge after a move beside the block (time passes, the stimulus advances),
or is itself such a move. -/
theorem step_kinds {s t : State} (h : step s = .next t) :
    (s.host.coord = .decoding ∧ t = finishAcquire s) ∨ (∃ w r, BesideBlock s r ∧ clockEdge w r = .next t) ∨
      BesideBlock s t := by
  rcases step_cases h with h | ⟨-, w, v, ms, h⟩ | ⟨-, v, l, h⟩ | ⟨-, v, a, i, hi, h⟩ | ⟨-, v, h⟩ | ⟨-, v, ms, rfl⟩
  · exact .inl h
  · refine .inr (.inl ⟨w, _, ?_, h⟩)
    exact besideBlock_elapse ms rfl rfl rfl rfl
  all_goals refine .inr (.inr ?_)
  · cases (exec_decodeWire l _).symm.trans h
    exact besideBlock_withEnv s _
  · obtain ⟨q, force, hq⟩ := decodeApi_read hi (s.withEnv v)
    exact besideBlock_beginRead (hq.symm.trans h)
  · cases h
    exact ⟨rfl, rfl, rfl, rfl, rfl, fun hs => ⟨hs.idle_no_call, hs.wait_left, hs.ts_past⟩⟩
  · exact besideBlock_elapse ms rfl rfl rfl rfl

/-- Outside `Decoding` no step touches the cache or the sink (R175, R205). -/
theorem step_memory {s t : State} (h : step s = .next t) :
    (s.host.coord = .decoding ∧ t = finishAcquire s) ∨
    (t.host.cache = s.host.cache ∧ t.host.sink = s.host.sink) := by
  rcases step_kinds h with h | ⟨w, r, hr, h⟩ | hb
  · exact .inl h
  · obtain ⟨u, hu, rfl⟩ := clockEdge_cases h
    rw [hostEdge_cache, hostEdge_sink, (blockEdge_frame hu).1]
    exact .inr ⟨hr.cache, hr.sink⟩
  · exact .inr ⟨hb.cache, hb.sink⟩

/-- Settles O42: only the end of an acquisition writes the cache, and only on values, which DECODE gives for a complete
frame alone. -/
theorem cacheChangesOnlyOnSuccess : Obligations.CacheChangesOnlyOnSuccess := by
  intro s t h
  rcases step_memory h with ⟨hc, rfl⟩ | ⟨hcache, -⟩
  · rcases finishAcquire_memory s with ⟨f, -, hcache, -⟩ | ⟨hum, tt, hr, hcache, -⟩
    · exact .inl hcache
    · exact .inr ⟨hc, (decodeFrame_ok hr).1, hum, tt, hr, hcache⟩
  · exact .inl hcache

/-- Settles O44: only the end of an acquisition writes the sink, and only on a failure. -/
theorem sinkGrowsByFailedAcquisitions : Obligations.SinkGrowsByFailedAcquisitions := by
  intro s t h
  rcases step_memory h with ⟨hc, rfl⟩ | ⟨-, hsink⟩
  · rcases finishAcquire_memory s with ⟨f, hr, -, hsink⟩ | ⟨hum, tt, -, -, hsink⟩
    · exact .inr ⟨hc, f, hr, hsink⟩
    · exact .inl hsink
  · exact .inl hsink

/-! ### Every step keeps the invariant -/

/-- The block's part looks at the engine, `count` and the parameters only. -/
theorem BlockInv.of_parts {s t : State} (h : BlockInv s) (he : t.eng = s.eng) (ha : t.asm = s.asm)
    (hp : t.par = s.par) : BlockInv t := by
  obtain ⟨eng, asm, host, env, par⟩ := s
  obtain ⟨eng', asm', host', env', par'⟩ := t
  cases he
  cases ha
  cases hp
  exact { h with }

/-- A state with another's block has only the host's part to meet for itself. -/
theorem State.Inv.of_block {s t : State} (h : s.Inv) (he : t.eng = s.eng) (ha : t.asm = s.asm) (hp : t.par = s.par)
    (hh : HostInv t) : t.Inv :=
  ⟨by rw [hp]; exact h.params, h.block.of_parts he ha hp, h.buffer.of_asm ha, hh⟩

theorem State.Inv.of_besideBlock {s t : State} (h : s.Inv) (hb : BesideBlock s t) : t.Inv :=
  h.of_block hb.eng hb.asm hb.par (hb.host h.host)

/-- The block's part of an edge: RESET and START establish the invariant anew, the phase operation keeps it. -/
theorem State.Inv.blockEdge {w : BitVec 3} {s t : State} (h : s.Inv) (ht : blockEdge w s = .next t) : t.Inv := by
  obtain ⟨hhost, -, hpar⟩ := blockEdge_frame ht
  have hp : t.par.wellFormed = true := by rw [hpar]; exact h.params
  rcases blockEdge_cases ht with ⟨-, hx⟩ | ⟨-, -, hx⟩ | ⟨-, -, hx⟩
  · cases hx
    exact ⟨hp, blockInv_of_reset rfl rfl, bufferInv_of_cleared rfl, h.host.of_host hhost⟩
  · cases hx
    exact ⟨hp, blockInv_of_start hp rfl rfl, bufferInv_of_cleared rfl, h.host.of_host hhost⟩
  · exact ⟨hp, h.block.phaseEdge h.params h.buffer.canonical hx, h.buffer.phaseEdge hx, h.host.of_host hhost⟩

/-- A clock edge: `line_i` is no part of the invariant, and the host's edge keeps its own. -/
theorem State.Inv.clockEdge {w : BitVec 3} {s t : State} (h : s.Inv) (ht : clockEdge w s = .next t) : t.Inv := by
  obtain ⟨u, hu, rfl⟩ := clockEdge_cases ht
  have hline : (s.withEnv { s.env with lineI := w.getLsbD 0 }).Inv := h.of_besideBlock (besideBlock_withEnv s _)
  have hinv : u.Inv := hline.blockEdge hu
  exact hinv.of_block (hostEdge_eng u) (hostEdge_asm u) (hostEdge_par u) hinv.host.hostEdge

/-- Settles O49: an edge keeps every part, and so do the end of an acquisition and the moves beside the block. -/
theorem stepKeepsTheInvariant : Obligations.StepKeepsTheInvariant := by
  intro s t hs h
  rcases step_kinds h with ⟨-, rfl⟩ | ⟨w, r, hr, h⟩ | hb
  · exact hs.of_block rfl rfl rfl hs.host.finishAcquire
  · exact (hs.of_besideBlock hr).clockEdge h
  · exact hs.of_besideBlock hb

/-! ### No step faults, and what a step does to the frame -/

/-- A command answers, and so does an edge without one. -/
theorem BlockInv.blockEdge_answers {s : State} (h : BlockInv s) (w : BitVec 3) : ∃ t, blockEdge w s = .next t := by
  cases hd : decodeInput w with
  | ok i =>
    rw [blockEdge_of_command hd]
    rcases decodeInput_kinds hd with rfl | rfl <;> exact ⟨_, rfl⟩
  | error e =>
    rw [blockEdge_of_noCommand hd]
    exact h.phaseEdge_answers

theorem BlockInv.clockEdge_answers {s : State} (h : BlockInv s) (w : BitVec 3) : ∃ t, clockEdge w s = .next t := by
  have hline : BlockInv (s.withEnv { s.env with lineI := w.getLsbD 0 }) := h.of_parts rfl rfl rfl
  obtain ⟨u, hu⟩ := hline.blockEdge_answers (portWord w s)
  exact ⟨hostEdge u, andThen_eq_next.mpr ⟨u, hu, rfl⟩⟩

/-- A caller's word is answered or refused, never a fault (R89, R181). -/
theorem apiCall_ne_fault (a : BitVec 3) (s : State) (r : Fault) : apiCall a s ≠ .fault r := by
  cases hd : decodeApi a with
  | ok i =>
    rw [apiCall_of_decoded hd]
    obtain ⟨q, force, hq⟩ := decodeApi_read hd s
    rw [hq]
    rcases beginRead_cases q force s with ⟨-, -, h⟩ | ⟨-, -, h⟩ | ⟨-, h⟩ <;> simp [h]
  | error e => simp [apiCall, hd]

/-- Settles O50, a move at a time: an edge answers, a call answers or is refused, and nothing else can stop. -/
theorem invariantExcludesFaults : Obligations.InvariantExcludesFaults := by
  intro s r hs
  have hedge : ∀ (u : State) (w : BitVec 3), BlockInv u → clockEdge w u ≠ .fault r := by
    intro u w hu h
    obtain ⟨t, ht⟩ := hu.clockEdge_answers w
    cases ht.symm.trans h
  have hstim : ∀ rest, BlockInv (withStimulus rest s) := fun rest => hs.block.of_parts rfl rfl rfl
  by_cases hc : s.host.coord = .decoding
  case pos => simp [step, nextMove, hc]
  case neg =>
    cases hm : s.env.stimulus with
    | nil =>
      rw [step, nextMove, if_neg hc, hm]
      exact hedge _ _ (hs.block.of_parts rfl rfl rfl)
    | cons m rest =>
      rw [step_of_front hc hm]
      cases m with
      | input w => exact hedge _ _ (hstim rest)
      | edge => exact hedge _ _ (hstim rest)
      | wire l => simp [playMove, exec_decodeWire]
      | call a => exact apiCall_ne_fault a _ r
      | observe => simp [playMove, exec, execDecode]
      | elapse ms => simp [playMove]

/-- The word without command leaves the edge to the phase register (R81). -/
theorem blockEdge_lineWord (l : Bool) (s : State) : blockEdge (lineWord l) s = phaseEdge s := by
  cases l <;> rfl

/-- Settles O28: the edge answers by the invariant, and APPEND of the pending event is what it does to the frame. -/
theorem pendingEventIsAppendedAtTheNextEdge : Obligations.PendingEventIsAppendedAtTheNextEdge := by
  intro s l rest hs hc htrig hv hm
  have hblock : BlockInv (withLine ((lineWord l).getLsbD 0) (withStimulus rest s)) := hs.block.of_parts rfl rfl rfl
  obtain ⟨t, ht⟩ := hblock.phaseEdge_answers
  refine ⟨hostEdge t, ?_, ?_⟩
  · rw [step_of_input hc hm, portWord_otherwise _ htrig, blockEdge_lineWord, ht]
    rfl
  · rw [hostEdge_asm]
    exact (phaseEdge_asm_event ht hs.buffer.canonical hv :)

/-- What the block's part of an edge does to the frame (R140, R141). -/
theorem blockEdge_asm {w : BitVec 3} {s t : State} (h : blockEdge w s = .next t) (hwf : Memory.wf s.asm.buf = true) :
    t.asm = s.asm ∨
    (s.eng.evValid = true ∧ t.asm.count.toNat = s.asm.count.toNat + 1 ∧
      ∀ a, byteAt t.asm.buf a = if a = s.asm.count.toNat then s.eng.evData else byteAt s.asm.buf a) ∨
    (t.asm.count = 0#3 ∧ ∀ a, byteAt t.asm.buf a = 0#8) := by
  rcases blockEdge_cases h with ⟨-, hx⟩ | ⟨-, -, hx⟩ | ⟨-, -, hx⟩
  · cases hx
    exact .inr (.inr ⟨rfl, fun _ => rfl⟩)
  · cases hx
    exact .inr (.inr ⟨rfl, fun _ => rfl⟩)
  · cases hv : s.eng.evValid with
    | false => exact .inl (phaseEdge_asm_quiet hx hv)
    | true => exact .inr (.inl ⟨rfl, phaseEdge_asm_event hx hwf hv⟩)

/-- Settles O29: the frame moves at clock edges only, and there as the block's part of the edge moves it. -/
theorem countGrowsByOneUntilCleared : Obligations.CountGrowsByOneUntilCleared := by
  intro s t hs h
  rcases step_kinds h with ⟨-, rfl⟩ | ⟨w, r, hr, h⟩ | hb
  · exact .inl rfl
  · obtain ⟨u, hu, rfl⟩ := clockEdge_cases h
    have hframe := blockEdge_asm hu (by simpa [hr.asm] using hs.buffer.canonical)
    rw [hostEdge_asm]
    simpa [hr.asm, hr.eng] using hframe
  · exact .inl hb.asm

end Sys2Proof.Machine
end

section
/-! PROOFS of the memory family: the observation of the running block (20_memory R63, R65; 30_encoding R92). -/

namespace Sys2Proof.Machine

/-- The observation move records the result port of the cycle it is played in, and writes nothing else (R63, R92,
entry 10). -/
theorem playMove_observe (s : State) :
    playMove .observe s = .next (s.withHost { s.host with snapshot := some (resultPort s) }) := rfl

/-- The result port shows the storage and nothing else of the state (R30, R63). -/
theorem resultPort_of_asm {s t : State} (h : t.asm = s.asm) : resultPort t = resultPort s := by
  rw [resultPort, resultPort, h]

/-- Settles O36: taking the move from the stimulus leaves the storage, so what is recorded is the port of the state
before the step; the port's three fields are `count`, the five cells and their DECODE by definition. -/
theorem observationIsASnapshot : Obligations.ObservationIsASnapshot := by
  intro s rest hc hs
  have hport : resultPort (withStimulus rest s) = resultPort s := resultPort_of_asm rfl
  have hstep : step s = .next ((withStimulus rest s).withHost { s.host with snapshot := some (resultPort s) }) := by
    rw [step_of_front hc hs, playMove_observe, hport]
    rfl
  exact ⟨_, hstep, rfl, rfl, rfl, rfl, rfl, rfl⟩

end Sys2Proof.Machine
end

section
/-! PROOFS of the encoding family: the decoder by format, the encoder and the opcode table (30_encoding R81 to R93). -/

namespace Sys2Proof

/-! ### Format I: the command bits -/

/-- The words without a command bit, those below 2, are rejected, and no others (R81). -/
theorem decodeInput_error_iff {w : BitVec 3} {e : DecodeError} :
    decodeInput w = .error e ↔ w.toNat < 2 ∧ e = .noCommand := by
  have hlow : w.toNat < 2 ↔ w.getLsbD 2 = false ∧ w.getLsbD 1 = false := by revert w; decide
  rw [hlow, decodeInput]
  cases w.getLsbD 2 <;> cases w.getLsbD 1 <;> simp [eq_comm]

/-- An input word that decodes lies in the row of its operation: RESET looks at `rst` alone, START at both command
bits (R81, R93). -/
theorem row_matches_of_decodeInput {w : BitVec 3} {i : Instr} (h : decodeInput w = .ok i) :
    (rowOf i).matches (.input w) = true := by
  have key : ∀ w : BitVec 3, (decodeInput w = .ok .reset → (rowOf .reset).matches (.input w) = true) ∧
      (decodeInput w = .ok .start → (rowOf .start).matches (.input w) = true) := by decide
  rcases Machine.decodeInput_kinds h with rfl | rfl
  · exact (key w).1 h
  · exact (key w).2 h

/-- The two rows of format I name the operation of the words in them. -/
theorem decode_of_matches_input {w : OpWord} {i : Instr} (hi : i = .reset ∨ i = .start)
    (h : (rowOf i).matches w = true) : decode w = .ok i := by
  have key : ∀ w : BitVec 3, ((rowOf .reset).matches (.input w) = true → decodeInput w = .ok .reset) ∧
      ((rowOf .start).matches (.input w) = true → decodeInput w = .ok .start) := by decide
  cases w with
  | input w => rcases hi with rfl | rfl; exacts [(key w).1 h, (key w).2 h]
  | _ => rcases hi with rfl | rfl <;> cases h

/-! ### Format P: the phase code -/

/-- A phase code that decodes is the code of its operation (R82). -/
theorem encode_of_decodePhase {c : BitVec 4} {i : Instr} (h : decodePhase c = .ok i) : encode i = .phase c := by
  unfold decodePhase at h
  split at h <;> cases h <;> exact congrArg OpWord.phase (BitVec.eq_of_toNat_eq (Eq.symm ‹_›))

/-- The row of a phase operation masks all four bits (R93). -/
theorem rowOf_of_decodePhase {c : BitVec 4} {i : Instr} (h : decodePhase c = .ok i) :
    rowOf i = ⟨.P, 4, 0xF, c.toNat⟩ := by
  unfold decodePhase at h
  split at h <;> cases h <;> rw [‹c.toNat = _›] <;> rfl

/-- The codes 9 to 15 are rejected, and no others (R89, R127). -/
theorem decodePhase_error_iff {c : BitVec 4} {e : DecodeError} :
    decodePhase c = .error e ↔ 9 ≤ c.toNat ∧ e = .reservedPhase c := by
  have hreserved : ∀ c : BitVec 4, 9 ≤ c.toNat → decodePhase c = .error (.reservedPhase c) := by decide
  by_cases hc : c.toNat ≤ 8
  · obtain ⟨i, hi⟩ := Machine.decodePhase_of_legal hc
    simp [hi, show ¬ 9 ≤ c.toNat by omega]
  · simp [hreserved c (by omega), show 9 ≤ c.toNat by omega, eq_comm]

/-! ### Format F: the frame word -/

/-- The frame word is put together again from `count` and the five bytes read from it (R86). -/
theorem frameWord_fields (w : BitVec 43) : frameWord (countOfWord w) (frameOfWord w) = w := by
  unfold frameWord countOfWord frameOfWord
  ext i hi
  grind

/-! ### Format A: the caller's word -/

/-- A caller's word that decodes is the word of its operation and force bit (R88). -/
theorem encode_of_decodeApi {a : BitVec 3} {i : Instr} (h : decodeApi a = .ok i) : encode i = .api a := by
  have key : ∀ a : BitVec 3, apiWord (a.extractLsb' 1 2) (a.getLsbD 0) = a := by decide
  have op : ∀ {k : BitVec 2}, (a.extractLsb' 1 2).toNat = k.toNat → apiWord k (a.getLsbD 0) = a := by
    intro k hk
    rw [← BitVec.eq_of_toNat_eq hk, key]
  unfold decodeApi at h
  split at h <;> cases h <;> exact congrArg OpWord.api (op ‹_›)

/-- Its row is named by the two `op` bits (R88, R93). -/
theorem rowOf_of_decodeApi {a : BitVec 3} {i : Instr} (h : decodeApi a = .ok i) :
    rowOf i = ⟨.A, 3, 0x6, a.toNat &&& 0x6⟩ := by
  have key : ∀ a : BitVec 3, a.toNat &&& 6 = 2 * (a.extractLsb' 1 2).toNat := by decide
  unfold decodeApi at h
  split at h <;> cases h <;> rw [key, ‹(a.extractLsb' 1 2).toNat = _›] <;> rfl

/-- The words with `op = 00` are rejected, and no others (R89). -/
theorem decodeApi_error_iff {a : BitVec 3} {e : DecodeError} :
    decodeApi a = .error e ↔ a.toNat < 2 ∧ e = .reservedApiOp a := by
  have key : ∀ a : BitVec 3, if a.toNat < 2 then decodeApi a = .error (.reservedApiOp a)
      else (decodeApi a).isOk = true := by decide
  have ha := key a
  split at ha
  case isTrue hlow => simp [ha, hlow, eq_comm]
  case isFalse hhigh =>
    cases hd : decodeApi a with
    | ok i => simp [hhigh]
    | error e => rw [hd] at ha; cases ha

/-! ### Format W: the wire symbol -/

/-- The symbol of a level is the word of that level (R83). -/
theorem encode_decodeWire (l : BitVec 1) : encode (decodeWire l) = .wire l := by
  revert l; decide

/-! ### The encoder and the decoder -/

theorem decode_encode (i : Instr) : decode (encode i) = .ok i := by
  cases i with
  | decode n f => exact Machine.decode_frameWord n f
  | readTemperature force => cases force <;> rfl
  | readHumidity force => cases force <;> rfl
  | readBoth force => cases force <;> rfl
  | _ => rfl

/-- Outside format I every bit of a word is significant, so the operation determines the word (R81 to R88). -/
theorem encode_of_decode {w : OpWord} {i : Instr} (h : decode w = .ok i) (hw : w.format ≠ .I) : encode i = w := by
  cases w with
  | input w => exact absurd rfl hw
  | phase c => exact encode_of_decodePhase h
  | event d => cases h; rfl
  | frame w => cases h; exact congrArg OpWord.frame (frameWord_fields w)
  | api a => exact encode_of_decodeApi h
  | wire l => cases h; exact encode_decodeWire l

/-- Settles O1: an operation's own word decodes to it, and a word that is all significant bits is its operation's. -/
theorem decodeAndEncodeAgree : Obligations.DecodeAndEncodeAgree :=
  ⟨fun i _ => decode_encode i, fun _ _ => encode_of_decode⟩

/-! ### The rows of the opcode table -/

/-- The word of an operation lies in the operation's row. -/
theorem row_matches_encode (i : Instr) : (rowOf i).matches (encode i) = true := by
  cases i with
  | append d => exact (Laws.Table.append d).1
  | decode n f => exact (Laws.Table.decode n f).1
  | readTemperature force => exact (Laws.Table.readTemperature force).1
  | readHumidity force => exact (Laws.Table.readHumidity force).1
  | readBoth force => exact (Laws.Table.readBoth force).1
  | _ => rfl

theorem row_matches_of_decode {w : OpWord} {i : Instr} (h : decode w = .ok i) : (rowOf i).matches w = true := by
  by_cases hw : w.format = .I
  case pos =>
    cases w with
    | input w => exact row_matches_of_decodeInput h
    | _ => cases hw
  case neg =>
    rw [← encode_of_decode h hw]
    exact row_matches_encode i

theorem Row.matches_iff {r : Row} {w : OpWord} :
    r.matches w = true ↔ w.format = r.format ∧ w.toNat &&& r.mask = r.value := by
  simp [Row.matches]

/-- A phase code in the row of a phase operation is that operation's code: the mask has all four bits. -/
theorem decode_of_matches_phase {c : BitVec 4} {w : OpWord} {i : Instr} (hi : decodePhase c = .ok i)
    (h : (rowOf i).matches w = true) : decode w = .ok i := by
  have mask : ∀ c : BitVec 4, c.toNat &&& 0xF = c.toNat := by decide
  rw [rowOf_of_decodePhase hi, Row.matches_iff] at h
  obtain ⟨hformat, hbits⟩ := h
  cases w with
  | phase c' =>
    obtain rfl : c' = c := BitVec.eq_of_toNat_eq ((mask c').symm.trans hbits)
    exact hi
  | _ => cases hformat

/-- A caller's word in the row of a public operation has its `op` bits: it is not reserved, and its row is the same. -/
theorem decode_of_matches_api {a : BitVec 3} {w : OpWord} {i : Instr} (hi : decodeApi a = .ok i)
    (h : (rowOf i).matches w = true) : ∃ j, decode w = .ok j ∧ rowOf j = rowOf i := by
  have reserved : ∀ a : BitVec 3, a.toNat < 2 ↔ a.toNat &&& 6 = 0 := by decide
  have hrow := rowOf_of_decodeApi hi
  rw [hrow, Row.matches_iff] at h
  obtain ⟨hformat, hbits⟩ := h
  cases w with
  | api b =>
    cases hd : decodeApi b with
    | ok j => exact ⟨j, hd, by rw [rowOf_of_decodeApi hd, hrow, show b.toNat &&& 6 = a.toNat &&& 6 from hbits]⟩
    | error e =>
      have hlow : a.toNat < 2 := (reserved a).mpr (hbits.symm.trans ((reserved b).mp (decodeApi_error_iff.mp hd).1))
      cases (decodeApi_error_iff.mpr ⟨hlow, rfl⟩).symm.trans hi
  | _ => cases hformat

/-- A wire symbol in the row of SYM0 or SYM1 is that symbol. -/
theorem decode_of_matches_wire {w : OpWord} {i : Instr} (hi : i = .sym0 ∨ i = .sym1)
    (h : (rowOf i).matches w = true) : decode w = .ok i := by
  have key : ∀ l : BitVec 1, ((rowOf .sym0).matches (.wire l) = true → decodeWire l = .sym0) ∧
      ((rowOf .sym1).matches (.wire l) = true → decodeWire l = .sym1) := by decide
  cases w with
  | wire l => rcases hi with rfl | rfl; exacts [congrArg Except.ok ((key l).1 h), congrArg Except.ok ((key l).2 h)]
  | _ => rcases hi with rfl | rfl <;> cases h

/-- A word in the row of an operation decodes to an operation of that row, a format at a time. -/
theorem decode_of_row_matches {w : OpWord} {i : Instr} (h : (rowOf i).matches w = true) :
    ∃ j, decode w = .ok j ∧ rowOf j = rowOf i := by
  rcases Machine.instr_kinds i with hi | ⟨c, hc⟩ | ⟨d, rfl⟩ | ⟨n, f, rfl⟩ | ⟨a, ha⟩ | hi
  · exact ⟨i, decode_of_matches_input hi h, rfl⟩
  · exact ⟨i, decode_of_matches_phase hc h, rfl⟩
  · cases w with
    | event d' => exact ⟨.append d', rfl, rfl⟩
    | _ => cases (Row.matches_iff.mp h).1
  · cases w with
    | frame w => exact ⟨.decode (countOfWord w) (frameOfWord w), rfl, rfl⟩
    | _ => cases (Row.matches_iff.mp h).1
  · exact decode_of_matches_api ha h
  · exact ⟨i, decode_of_matches_wire hi h, rfl⟩

/-- Settles O2: both directions, each a format at a time. -/
theorem decoderFollowsOpcodeTable : Obligations.DecoderFollowsOpcodeTable :=
  ⟨fun _ _ => row_matches_of_decode, fun _ _ => decode_of_row_matches⟩

/-- Settles O3: the three decoders that reject do so exactly on the reserved words and the words without command, and
the other three formats decode every word. -/
theorem onlyReservedWordsRejected : Obligations.OnlyReservedWordsRejected := by
  refine ⟨fun c hc => decodePhase_error_iff.mpr ⟨hc, rfl⟩, fun a ha => decodeApi_error_iff.mpr ⟨ha, rfl⟩,
    fun w hw => decodeInput_error_iff.mpr ⟨hw, rfl⟩, fun o e he => ?_⟩
  cases o with
  | input w => exact .inr (.inr ⟨w, rfl, (decodeInput_error_iff.mp he).1⟩)
  | phase c => exact .inl ⟨c, rfl, (decodePhase_error_iff.mp he).1⟩
  | event d => cases he
  | frame w => cases he
  | api a => exact .inr (.inl ⟨a, rfl, (decodeApi_error_iff.mp he).1⟩)
  | wire l => cases he

/-- Settles O4: each word is a literal, and the decoder computes on it. -/
theorem writtenWordsDecode : Obligations.WrittenWordsDecode :=
  ⟨rfl, rfl, rfl, rfl, rfl, rfl, rfl⟩

end Sys2Proof
end

section
/-! PROOFS of the encoding family: wire symbols, the result word and the refused call (30_encoding R83, R87, R89). -/

namespace Sys2Proof.Machine

/-- The level a SAMPLE shifts in is bit 0 of the new `shreg`, whether or not the byte completes (R121). -/
theorem exec_sample_lsb {s t : State} (h : exec .sample s = .next t) : t.eng.shreg.getLsbD 0 = s.env.lineI := by
  have hshreg : t.eng.shreg = shiftIn s.eng.shreg s.env.lineI := by
    by_cases hb : s.eng.bitcnt = 7#3
    · obtain ⟨u, hu, -, -, hu', -⟩ := exec_sample_completing hb
      cases hu.symm.trans h
      exact hu'
    · cases (exec_sample_inside hb).symm.trans h
      rfl
  rw [hshreg, BitVec.getLsbD_eq_getElem (by decide), shiftIn_getElem_zero]

/-- Settles O17: the symbols write `line_i` only, and that level is the one SAMPLE shifts in. -/
theorem symbolsAreWhatSampleReads : Obligations.SymbolsAreWhatSampleReads := by
  intro s
  exact ⟨rfl, rfl, fun t h => exec_sample_lsb (s := withLine false s) h,
    fun t h => exec_sample_lsb (s := withLine true s) h⟩

/-! ### The result word -/

/-- The three fields of the result word are where R87 puts them. -/
theorem Result.word_status (r : Result) : r.word.extractLsb' 32 2 = r.status := by
  unfold Result.word
  ext i hi
  grind

theorem Result.word_hum (r : Result) : r.word.extractLsb' 16 16 = r.humPort := by
  unfold Result.word
  ext i hi
  grind

theorem Result.word_temp (r : Result) : r.word.extractLsb' 0 16 = r.tempPort := by
  unfold Result.word
  ext i hi
  grind

/-- There is no fourth status (R200). -/
theorem Result.status_ne_three (r : Result) : r.status ≠ 3#2 := by
  cases r with
  | ok h t => exact show 0#2 ≠ 3#2 by decide
  | fail f => cases f <;> decide

/-- Settles O33: the fields are read back from the word, and a failure's values are zeros. -/
theorem resultWordLayout : Obligations.ResultWordLayout := by
  intro n f
  simp only [Result.word_status, Result.word_hum, Result.word_temp]
  refine ⟨Result.status_ne_three _, fun h t hd => ?_, fun hd => ?_, fun hd => ?_⟩ <;> rw [hd]
  · exact ⟨rfl, rfl, rfl⟩
  · rfl
  · rfl

/-- Settles O39: the move is the front of the stimulus, and the decoder rejects the word under its name. -/
theorem reservedCallWordIsRefused : Obligations.ReservedCallWordIsRefused := by
  intro s a rest hc ha hs
  have hreject : decodeApi a = .error (.reservedApiOp a) := decodeApi_error_iff.mpr ⟨ha, rfl⟩
  calc step s
      = apiCall a (withStimulus rest s) := step_of_front hc hs
    _ = .refused (.reservedApiOp a) := by rw [apiCall, hreject]

end Sys2Proof.Machine
end

section
/-! PROOFS of the encoding family: the moves of a waveform, and what they drive the block to (30_encoding R84, R92;
40_timing_engine R110, R114 to R121, R140). -/

namespace Sys2Proof.Machine

/-! ### Driving the block by moves -/

/-- The block's registers are `e` and its storage `a`, with the host idle, the parameters `p`, and `rest` to come. -/
structure BlockAt (p : Params) (e : Engine) (a : Assembler) (rest : List Move) (s : State) : Prop where
  par : s.par = p
  idle : s.host.coord = .idle
  eng : s.eng = e
  asm : s.asm = a
  stimulus : s.env.stimulus = rest

/-- With the host idle, playing `ms` takes the block from `e`, `a` to `e'`, `a'`, whatever follows. -/
def Drives (p : Params) (ms : List Move) (e : Engine) (a : Assembler) (e' : Engine) (a' : Assembler) : Prop :=
  ∀ (s : State) (rest : List Move), BlockAt p e a (ms ++ rest) s →
    ∃ t, runSteps ms.length s = .next t ∧ BlockAt p e' a' rest t

section
variable {p : Params} {e e' e'' : Engine} {a a' a'' : Assembler}

theorem drives_nil : Drives p [] e a e a := fun s _ h => ⟨s, rfl, h⟩

theorem Drives.append {ms ms' : List Move} (h : Drives p ms e a e' a') (h' : Drives p ms' e' a' e'' a'') :
    Drives p (ms ++ ms') e a e'' a'' := by
  intro s rest hs
  rw [List.append_assoc] at hs
  obtain ⟨t, ht, hblock⟩ := h s _ hs
  obtain ⟨u, hu, hblock'⟩ := h' t _ hblock
  exact ⟨u, by rw [List.length_append, runSteps_add, ht, andThen_next, hu], hblock'⟩

/-- The START word restarts the block, whatever it was doing (R112). -/
theorem drives_start : Drives p Stim.start e a { Engine.reset with phase := Phase.initLow } Assembler.cleared := by
  intro s rest hs
  have hc : s.host.coord ≠ .decoding := by simp [hs.idle]
  have hport : portWord 0b010#3 s = 0b010#3 := portWord_otherwise _ (by simp [hs.idle])
  have hstep := step_of_input hc hs.stimulus
  rw [hport, blockEdge_of_command (show decodeInput 0b010#3 = .ok .start from rfl)] at hstep
  refine ⟨hostEdge _, by rw [show Stim.start.length = 0 + 1 from rfl, runSteps, hstep]; rfl, ?_⟩
  rw [hostEdge_of_idle (by exact hs.idle)]
  exact ⟨hs.par, hs.idle, rfl, rfl, rfl⟩

/-- Without a pending event an edge runs the operation of the phase alone (R93). -/
theorem phaseEdge_of_quiet {i : Instr} {s : State} (hd : decodePhase s.eng.phase = .ok i)
    (hq : s.eng.evValid = false) : phaseEdge s = exec i s := by
  rw [phaseEdge_of_decoded hd, if_neg (by simp [hq])]

/-- One edge without command: with no event pending, the operation of the phase is all it does (R93). -/
theorem drives_edge {l : Bool} {i : Instr} (hq : e.evValid = false) (hd : decodePhase e.phase = .ok i)
    (hx : ∀ s : State, s.eng = e → s.par = p → s.env.lineI = l → exec i s = .next (s.withEng e')) :
    Drives p (levelMoves [l]) e a e' a := by
  intro s rest hs
  obtain ⟨hpar, hidle, rfl, hasm, hstim⟩ := hs
  have hedge := (phaseEdge_of_quiet (s := withLine l (withStimulus rest s)) hd hq).trans (hx _ rfl hpar rfl)
  exact ⟨_, runSteps_snoc (k := 0) rfl ((step_of_idle hidle hstim).trans hedge), hpar, hidle, rfl, hasm, rfl⟩

/-- Levels whose edges all leave the block as it is leave it so together. -/
theorem drives_still {ls : List Bool} (h : ∀ l ∈ ls, Drives p (levelMoves [l]) e a e a) :
    Drives p (levelMoves ls) e a e a := by
  induction ls with
  | nil => exact drives_nil
  | cons l ls ih =>
    exact (h l List.mem_cons_self).append (ih fun l' hl' => h l' (List.mem_cons_of_mem l hl'))

/-- In `P_IDLE` the line has no effect (R113). -/
theorem drives_idle (hq : e.evValid = false) (hi : e.phase = Phase.idle) (ls : List Bool) :
    Drives p (levelMoves ls) e a e a := by
  refine drives_still fun l _ => drives_edge hq (by rw [hi]; rfl) fun s hs _ _ => ?_
  subst hs
  exact exec_idle_of_quiet hi hq

/-! ### The waits -/

/-- The operation of a phase that awaits the level `l` moves the phase on by one at that level (R115 to R119); where
`cyc` is 0 already, as it is outside the timed phases, BIT_WAIT_H does no more. -/
theorem exec_of_awaits {c : BitVec 4} {l : Bool} (h : awaits c = some l) :
    ∃ i, decodePhase c = .ok i ∧ ∀ s : State, s.eng.phase = c → s.eng.cyc = 0#4 →
      exec i s = .next (s.withEng
        (if s.env.lineI = l then { s.eng.noEvent with phase := c + 1#4 } else s.eng.noEvent)) := by
  unfold awaits at h
  split at h
  case isTrue hc =>
    cases h
    rcases hc with rfl | rfl | rfl
    · exact ⟨.ackWaitH1, rfl, fun s _ _ => rfl⟩
    · exact ⟨.ackWaitH2, rfl, fun s _ _ => rfl⟩
    · refine ⟨.bitWaitH, rfl, fun s _ hcyc => ?_⟩
      rw [exec_bitWaitH]
      cases s.env.lineI
      · rfl
      · rw [if_pos rfl, ← hcyc]; rfl
  case isFalse =>
    split at h
    case isTrue hc =>
      cases h
      rcases hc with rfl | rfl
      · exact ⟨.ackWaitL, rfl, fun s _ _ => rfl⟩
      · exact ⟨.bitWaitL, rfl, fun s _ _ => rfl⟩
    case isFalse => cases h

/-- A wait stays as it is while the line keeps the other level (R123). -/
theorem drives_wait {l : Bool} (hq : e.evValid = false) (hcyc : e.cyc = 0#4) (hw : awaits e.phase = some (!l))
    (n : Nat) : Drives p (levelMoves (List.replicate n l)) e a e a := by
  obtain ⟨i, hd, hx⟩ := exec_of_awaits hw
  refine drives_still fun l' hl' => drives_edge hq hd fun s hs _ hline => ?_
  obtain rfl : l' = l := List.eq_of_mem_replicate hl'
  subst hs
  rw [hx s rfl hcyc, hline, if_neg (by cases l' <;> decide), Engine.noEvent_of_quiet hq]

/-- The awaited level moves the phase on. -/
theorem drives_seen {l : Bool} (hq : e.evValid = false) (hcyc : e.cyc = 0#4) (hw : awaits e.phase = some l) :
    Drives p (levelMoves [l]) e a { e with phase := e.phase + 1#4 } a := by
  obtain ⟨i, hd, hx⟩ := exec_of_awaits hw
  refine drives_edge hq hd fun s hs _ hline => ?_
  subst hs
  rw [hx s rfl hcyc, if_pos hline, Engine.noEvent_of_quiet hq]

/-- A level that lasts moves the phase on at its first edge, and the next wait, for the other level, stays. -/
theorem drives_level {l : Bool} (hq : e.evValid = false) (hcyc : e.cyc = 0#4) (hw : awaits e.phase = some l)
    (hw' : awaits (e.phase + 1#4) = some (!l)) (n : Nat) :
    Drives p (levelMoves (List.replicate (n + 1) l)) e a { e with phase := e.phase + 1#4 } a :=
  (drives_seen hq hcyc hw).append (drives_wait (e := { e with phase := e.phase + 1#4 }) hq hcyc hw' n)

/-! ### The timed phases -/

/-- A timed phase with `n - cyc` edges to go ends at the last of them, at whatever levels (R114, R120). -/
theorem drives_timed {i : Instr} {n : Nat} {target : BitVec 4}
    (hx : ∀ s : State, s.par = p → exec i s = .next (countEdges n target s)) (hn : n ≤ 16) (l : Bool) (ls : List Bool)
    (hq : e.evValid = false) (hd : decodePhase e.phase = .ok i) (hlen : e.cyc.toNat + (ls.length + 1) = n) :
    Drives p (levelMoves (l :: ls)) e a { e with phase := target, cyc := 0#4 } a := by
  induction ls generalizing l e with
  | nil =>
    refine drives_edge hq hd fun s hs hpar _ => ?_
    subst hs
    rw [hx s hpar, countEdges_last target hlen, Engine.noEvent_of_quiet hq]
  | cons l' ls ih =>
    rw [List.length_cons] at hlen
    have hcyc : (e.cyc + 1#4).toNat = e.cyc.toNat + 1 := by bv_omega
    have hfirst : Drives p (levelMoves [l]) e a { e with cyc := e.cyc + 1#4 } a := by
      refine drives_edge hq hd fun s hs hpar _ => ?_
      subst hs
      rw [hx s hpar, countEdges_inside target (by omega), Engine.noEvent_of_quiet hq]
    exact hfirst.append (ih (e := { e with cyc := e.cyc + 1#4 }) l' hq hd (by simp only [hcyc]; omega))

/-! ### The pending event -/

/-- The storage after one more byte: the next cell takes it, and `count` grows (R140). -/
def Assembler.store (a : Assembler) (v : Byte) : Assembler :=
  { buf := putByte a.buf a.count.toNat v, count := a.count + 1#3 }

/-- APPEND of a pending event with a cell left stores the byte (R140). -/
theorem exec_append_store {s : State} {d : Byte} (hv : s.eng.evValid = true) (hroom : s.asm.count.toNat < bufCells) :
    exec (.append d) s = .next (s.withAsm (s.asm.store d)) := by
  simp [exec, execAppend, hv, memWrite, hroom, Assembler.store]

/-- The state with its pending event's byte in the buffer and the event bit down. -/
def State.stored (s : State) : State := (s.withAsm (s.asm.store s.eng.evData)).withEng s.eng.noEvent

/-- An edge with an event pending does what it does when the byte is in the buffer already (R110, R208). -/
theorem phaseEdge_of_pending {s : State} (hv : s.eng.evValid = true) (hroom : s.asm.count.toNat < bufCells) :
    phaseEdge s = phaseEdge s.stored := by
  cases hd : decodePhase s.eng.phase with
  | ok i =>
    rw [phaseEdge_of_decoded hd, if_pos hv, exec_append_store hv hroom, andThen_next,
      phaseEdge_of_quiet (s := s.stored) hd rfl]
    exact (exec_phase_noEvent hd (s.withAsm (s.asm.store s.eng.evData))).symm
  | error _ => simp [phaseEdge, State.stored, hd]

/-- So before another edge a pending event may be taken as stored. -/
theorem Drives.of_stored {l : Bool} {ls : List Bool} (hv : e.evValid = true) (hroom : a.count.toNat < bufCells)
    (h : Drives p (levelMoves (l :: ls)) e.noEvent (a.store e.evData) e' a') :
    Drives p (levelMoves (l :: ls)) e a e' a' := by
  intro s rest hs
  obtain ⟨hpar, hidle, rfl, rfl, hstim⟩ := hs
  obtain ⟨t, ht, hblock⟩ := h s.stored rest ⟨hpar, hidle, rfl, rfl, hstim⟩
  refine ⟨t, ?_, hblock⟩
  rw [← ht, levelMoves, List.map_cons, List.length_cons, runSteps, runSteps, step_of_idle hidle hstim,
    step_of_idle (s := s.stored) hidle hstim]
  exact congrArg (andThen · _) (phaseEdge_of_pending hv hroom)

end
end Sys2Proof.Machine
end

section
/-! PROOFS of the encoding family: the clean waveform, symbol by symbol (30_encoding R84, R92;
40_timing_engine R121). -/

namespace Sys2Proof.Machine

/-! ### The waveform as pulses

A symbol of R92 is a gap and then a pulse. Cut before the pulse, so that every piece begins and ends in `P_BIT_WAIT_H`,
with the sample taken and its event stored in between. -/

/-- The pulse of a bit and the gap after it. -/
def pulse (b : Bool) : List Move := Stim.high (if b then 7 else 3) ++ Stim.low 5

/-- After the level that is sampled, the pulse of `b` has at least one more edge at `b`, and then these levels. -/
def afterSample (b : Bool) : List Bool :=
  if b then List.replicate 2 true ++ List.replicate 5 false else List.replicate 3 false

/-- With the default delay the level sampled is the fourth. -/
theorem pulse_eq (b : Bool) : pulse b = Stim.high 3 ++ (levelMoves [b] ++ levelMoves (b :: afterSample b)) := by
  cases b <;> rfl

/-- A gap carried over from the front of each symbol to the front of the next. -/
theorem bits_append_gap (bs : List Bool) : bs.flatMap Stim.bit ++ Stim.low 5 = Stim.low 5 ++ bs.flatMap pulse := by
  induction bs with
  | nil => simp
  | cons b bs ih => simp only [List.flatMap_cons, List.append_assoc, ih, Stim.bit, pulse]

theorem frame_append_tail (f : Frame) :
    Stim.frame f ++ Stim.tail = Stim.low 5 ++ ((frameBits f).flatMap pulse ++ Stim.high 1) := by
  rw [Stim.frame, Stim.tail, ← List.append_assoc, bits_append_gap, List.append_assoc]

/-- The quiet engine waiting for the pulse of bit `bit` of byte `byte`. -/
def Engine.listening (bit byte : BitVec 3) (sh d : Byte) : Engine :=
  { phase := Phase.bitWaitH, cyc := 0#4, bitcnt := bit, bytecnt := byte, shreg := sh, evValid := false, evData := d }

/-- The quiet engine in `P_IDLE` after a frame whose last byte was `v`. -/
def Engine.resting (v : Byte) : Engine := { Engine.listening 0#3 0#3 v v with phase := Phase.idle }

section
variable {p : Params} (hd : p.nSampleDelay = 2) {bit byte : BitVec 3} {sh d : Byte} {a : Assembler}
include hd

/-- Three high edges: the detect edge and the two of the delay (R119, R120). -/
theorem drives_to_sample : Drives p (Stim.high 3) (.listening bit byte sh d) a
    { Engine.listening bit byte sh d with phase := Phase.sample } a := by
  have hx : ∀ s : State, s.par = p → exec .sampleDelay s = .next (countEdges 2 Phase.sample s) := by
    intro s hpar
    rw [← hd, ← hpar]
    rfl
  have hdetect := drives_seen (p := p) (e := .listening bit byte sh d) (a := a) (l := true) rfl rfl rfl
  exact hdetect.append (drives_timed hx (by decide) true [true] rfl rfl rfl)

omit hd in
/-- After the sample the rest of the pulse is waited out, and the gap brings the next listening (R118). -/
theorem drives_gap {e : Engine} (b : Bool) (hq : e.evValid = false) (hcyc : e.cyc = 0#4)
    (hc : e.phase = Phase.bitWaitL) :
    Drives p (levelMoves (b :: afterSample b)) e a { e with phase := Phase.bitWaitH } a := by
  have hgap : ∀ n, Drives p (levelMoves (List.replicate (n + 1) false)) e a { e with phase := Phase.bitWaitH } a := by
    intro n
    have h := drives_level (p := p) (a := a) hq hcyc (l := false) (by rw [hc]; decide) (by rw [hc]; decide) n
    rwa [hc] at h
  cases b with
  | false => exact hgap 3
  | true => exact (drives_wait hq hcyc (l := true) (by rw [hc]; decide) 3).append (hgap 4)

/-- The pulse of a bit inside a byte shifts the bit in (R121). -/
theorem drives_pulse_inside (b : Bool) (hbit : bit ≠ 7#3) :
    Drives p (pulse b) (.listening bit byte sh d) a (.listening (bit + 1#3) byte (shiftIn sh b) d) a := by
  have hsample : Drives p (levelMoves [b]) { Engine.listening bit byte sh d with phase := Phase.sample } a
      { Engine.listening (bit + 1#3) byte (shiftIn sh b) d with phase := Phase.bitWaitL } a := by
    refine drives_edge rfl rfl fun s hs _ hline => ?_
    rw [exec_sample_inside (by rw [hs]; exact hbit), hs, hline]
    rfl
  rw [pulse_eq]
  exact (drives_to_sample hd).append (hsample.append (drives_gap b rfl rfl rfl))

/-- The pulse of the eighth bit shifts it in, and the byte is stored at the next edge (R121, R140). -/
theorem drives_pulse_byte (b : Bool) (hbyte : byte ≠ 4#3) (hroom : a.count.toNat < bufCells) :
    Drives p (pulse b) (.listening 7#3 byte sh d) a
      (.listening 0#3 (byte + 1#3) (shiftIn sh b) (shiftIn sh b)) (a.store (shiftIn sh b)) := by
  have hsample : Drives p (levelMoves [b]) { Engine.listening 7#3 byte sh d with phase := Phase.sample } a
      { (Engine.listening 0#3 (byte + 1#3) (shiftIn sh b) d).emit (shiftIn sh b) with phase := Phase.bitWaitL }
      a := by
    refine drives_edge rfl rfl fun s hs _ hline => ?_
    rw [exec_sample_byte (by rw [hs]; rfl) (by rw [hs]; exact hbyte), hs, hline]
    rfl
  rw [pulse_eq]
  exact (drives_to_sample hd).append (hsample.append (.of_stored rfl hroom (drives_gap b rfl rfl rfl)))

/-- The pulse of the fortieth bit also ends the frame (R121). -/
theorem drives_pulse_frame (b : Bool) (hroom : a.count.toNat < bufCells) :
    Drives p (pulse b) (.listening 7#3 4#3 sh d) a (.resting (shiftIn sh b)) (a.store (shiftIn sh b)) := by
  have hsample : Drives p (levelMoves [b]) { Engine.listening 7#3 4#3 sh d with phase := Phase.sample } a
      { (Engine.listening 0#3 0#3 (shiftIn sh b) d).emit (shiftIn sh b) with phase := Phase.idle } a := by
    refine drives_edge rfl rfl fun s hs _ hline => ?_
    rw [exec_sample_frame (by rw [hs]; rfl) (by rw [hs]; rfl), hs, hline]
    rfl
  rw [pulse_eq]
  exact (drives_to_sample hd).append (hsample.append (.of_stored rfl hroom (drives_idle rfl rfl _)))

/-! ### Bytes and frames -/

/-- Pulses that stay inside a byte shift their bits in. -/
theorem drives_pulses_inside (bs : List Bool) (h : bit.toNat + bs.length < 8) :
    Drives p (bs.flatMap pulse) (.listening bit byte sh d) a
      (.listening (bit + BitVec.ofNat 3 bs.length) byte (bs.foldl shiftIn sh) d) a := by
  induction bs generalizing bit sh with
  | nil => simpa using drives_nil
  | cons b bs ih =>
    rw [List.length_cons] at h
    have hbit : bit ≠ 7#3 := by bv_omega
    have hrest := ih (bit := bit + 1#3) (sh := shiftIn sh b) (by bv_omega)
    have hcount : bit + BitVec.ofNat 3 (bs.length + 1) = bit + 1#3 + BitVec.ofNat 3 bs.length := by bv_omega
    rw [List.flatMap_cons, List.length_cons, hcount]
    exact (drives_pulse_inside hd b hbit).append hrest

/-- The eight pulses of a byte do what its last pulse does from a shift register that this bit makes the byte. -/
theorem drives_byte_of_last {v : Byte} {e' : Engine} {a' : Assembler}
    (h : ∀ sh', shiftIn sh' (v.getLsbD 0) = v → Drives p (pulse (v.getLsbD 0)) (.listening 7#3 byte sh' d) a e' a') :
    Drives p ((byteBits v).flatMap pulse) (.listening 0#3 byte sh d) a e' a' := by
  have hbits : byteBits v = (byteBits v).take 7 ++ [v.getLsbD 0] := rfl
  have hseven := drives_pulses_inside hd (bit := 0#3) (byte := byte) (sh := sh) (d := d) (a := a)
    ((byteBits v).take 7) (by simp [byteBits])
  have hlast := h (((byteBits v).take 7).foldl shiftIn sh) (foldl_shiftIn_byteBits sh v)
  rw [hbits, List.flatMap_append, List.flatMap_singleton]
  exact hseven.append hlast

/-- A byte before the fifth is stored in the next cell. -/
theorem drives_byte (v : Byte) (hbyte : byte ≠ 4#3) (hroom : a.count.toNat < bufCells) :
    Drives p ((byteBits v).flatMap pulse) (.listening 0#3 byte sh d) a (.listening 0#3 (byte + 1#3) v v)
      (a.store v) := by
  refine drives_byte_of_last hd fun sh' hsh => ?_
  have hpulse := drives_pulse_byte hd (sh := sh') (d := d) (v.getLsbD 0) hbyte hroom
  rwa [hsh] at hpulse

/-- The fifth byte is stored too, and the engine rests. -/
theorem drives_lastByte (v : Byte) (hroom : a.count.toNat < bufCells) :
    Drives p ((byteBits v).flatMap pulse) (.listening 0#3 4#3 sh d) a (.resting v) (a.store v) := by
  refine drives_byte_of_last hd fun sh' hsh => ?_
  have hpulse := drives_pulse_frame hd (sh := sh') (d := d) (v.getLsbD 0) hroom
  rwa [hsh] at hpulse

/-- The forty pulses of a frame fill the cleared storage with it (R84). -/
theorem drives_frame (f : Frame) :
    Drives p ((frameBits f).flatMap pulse) (.listening 0#3 0#3 sh d) Assembler.cleared
      (.resting f.b4) { buf := memOfFrame f, count := 5#3 } := by
  have hfirst := drives_byte hd (byte := 0#3) (sh := sh) (d := d) (a := .cleared) f.b0 (by decide) (by decide)
  have hsecond := hfirst.append (drives_byte hd f.b1 (by decide) (show (1#3).toNat < bufCells by decide))
  have hthird := hsecond.append (drives_byte hd f.b2 (by decide) (show (2#3).toNat < bufCells by decide))
  have hfourth := hthird.append (drives_byte hd f.b3 (by decide) (show (3#3).toNat < bufCells by decide))
  have hframe := hfourth.append (drives_lastByte hd f.b4 (show (4#3).toNat < bufCells by decide))
  simp only [frameBits, List.flatMap_append]
  exact hframe

/-- The whole waveform, from any registers. -/
theorem drives_waveform (hs : p.nSettle = 9) (f : Frame) (e : Engine) (a : Assembler) :
    Drives p (Stim.start ++ Stim.init ++ Stim.ack ++ Stim.frame f ++ Stim.tail) e a
      (.resting f.b4) { buf := memOfFrame f, count := 5#3 } := by
  have hx : ∀ s : State, s.par = p → exec .initLow s = .next (countEdges 9 Phase.ackWaitH1 s) := by
    intro s hpar
    rw [← hs, ← hpar]
    rfl
  have hinit : Drives p Stim.init { Engine.reset with phase := Phase.initLow } .cleared
      { Engine.reset with phase := Phase.ackWaitH1 } .cleared :=
    drives_timed hx (by decide) false (List.replicate 8 false) rfl rfl rfl
  have hack : Drives p Stim.ack { Engine.reset with phase := Phase.ackWaitH1 } .cleared
      { Engine.reset with phase := Phase.bitWaitL } .cleared :=
    ((drives_level (l := true) rfl rfl rfl rfl 2).append (drives_level (l := false) rfl rfl rfl rfl 7)).append
      (drives_level (l := true) rfl rfl rfl rfl 7)
  have hgap : Drives p (Stim.low 5) { Engine.reset with phase := Phase.bitWaitL } .cleared
      (.listening 0#3 0#3 0#8 0#8) .cleared := drives_level (l := false) rfl rfl rfl rfl 4
  rw [List.append_assoc, frame_append_tail]
  exact ((drives_start.append hinit).append hack).append
    (hgap.append ((drives_frame hd f).append (drives_idle rfl rfl [true])))

end

/-- Settles O25: the waveform drives any block there, and the storage it leaves is the frame's. -/
theorem cleanWaveformDeliversTheFrame : Obligations.CleanWaveformDeliversTheFrame := by
  intro s f rest hs hd hidle hstim
  obtain ⟨t, ht, -, -, heng, hasm, hrest⟩ :=
    drives_waveform hd hs f s.eng s.asm s rest ⟨rfl, hidle, rfl, rfl, hstim⟩
  have hframe : memFrame t.asm.buf = f := by rw [hasm]; exact memFrame_memOfFrame f
  exact ⟨t, ht, hframe, congrArg (·.count) hasm, congrArg (·.phase) heng, congrArg (·.evValid) heng,
    congrArg (·.evData) heng, congrArg (·.shreg) heng, hrest⟩

end Sys2Proof.Machine
end

section
/-! PROOFS of the timing engine family, single edges: what has priority at one, and what each operation of the engine
does (40_timing_engine R110 to R121; 60_exceptions R208, R209). -/

namespace Sys2Proof.Machine

/-! ### Priorities -/

/-- `rst` alone selects RESET (R81, R110). -/
theorem blockEdge_of_rst {w : BitVec 3} (h : w.getLsbD 2 = true) (s : State) : blockEdge w s = exec .reset s :=
  blockEdge_of_command (by rw [decodeInput, if_pos h]) s

/-- Without `rst`, `start` selects START (R81, R110). -/
theorem blockEdge_of_start {w : BitVec 3} (h2 : w.getLsbD 2 = false) (h1 : w.getLsbD 1 = true) (s : State) :
    blockEdge w s = exec .start s :=
  blockEdge_of_command (by rw [decodeInput, if_neg (Bool.eq_false_iff.mp h2), if_pos h1]) s

/-- Without either, the phase register selects (R81, R110). -/
theorem blockEdge_of_line {w : BitVec 3} (h2 : w.getLsbD 2 = false) (h1 : w.getLsbD 1 = false) (s : State) :
    blockEdge w s = phaseEdge s :=
  blockEdge_of_noCommand (e := .noCommand) (by
    rw [decodeInput, if_neg (Bool.eq_false_iff.mp h2), if_neg (Bool.eq_false_iff.mp h1)]) s

/-- A reserved phase code faults, a pending event or not (R209, entry 22). -/
theorem phaseEdge_of_reserved {s : State} (h : 9 ≤ s.eng.phase.toNat) :
    phaseEdge s = .fault (.reservedPhase s.eng.phase) := by
  rw [phaseEdge, decodePhase_error_iff.mpr ⟨h, rfl⟩]

/-- Settles O6, a clause per kind of word and, without a command, per state of the event register and phase code. -/
theorem edgePriority : Obligations.EdgePriority := by
  intro w s
  refine ⟨fun h2 => blockEdge_of_rst h2 s, fun h2 h1 => blockEdge_of_start h2 h1 s, fun i h2 h1 hd hv => ?_,
    fun i h2 h1 hd hv => ?_, fun h2 h1 hc => ?_⟩ <;> rw [blockEdge_of_line h2 h1]
  · exact phaseEdge_of_quiet hd hv
  · rw [phaseEdge_of_decoded hd, if_pos hv]
  · exact phaseEdge_of_reserved hc

/-- Settles O9: RESET loads constants into the two records of the block, and an edge with `rst` is RESET. -/
theorem resetClearsTheBlock : Obligations.ResetClearsTheBlock := fun s =>
  ⟨_, rfl, rfl, rfl, rfl, rfl, rfl, rfl, rfl, fun _ => rfl, rfl, rfl, rfl, rfl, rfl, rfl,
    fun _ h2 => blockEdge_of_rst h2 s⟩

/-- Settles O10: START loads constants too, so it restarts any phase alike and repeats itself while it is held. -/
theorem startRestartsFromEveryPhase : Obligations.StartRestartsFromEveryPhase := fun s =>
  ⟨_, rfl, rfl, rfl, rfl, rfl, rfl, rfl, rfl, fun _ => rfl, rfl, rfl, rfl, rfl, rfl, rfl,
    fun _ h2 h1 => blockEdge_of_start h2 h1 s, rfl⟩

/-! ### The operations that rest, count or wait -/

/-- Settles O11: IDLE writes `phase` and the event bit. -/
theorem idleKeepsEverythingElse : Obligations.IdleKeepsEverythingElse := fun _ => rfl

/-- A timed phase of at least one edge ends at `cyc = n - 1` and counts at every other value (R114, R120). -/
theorem countEdges_clauses {n : Nat} (hn : 1 ≤ n) (target : BitVec 4) (s : State) :
    (s.eng.cyc.toNat = n - 1 →
      countEdges n target s = { s with eng := { s.eng with phase := target, cyc := 0#4, evValid := false } }) ∧
    (s.eng.cyc.toNat ≠ n - 1 →
      countEdges n target s = { s with eng := { s.eng with cyc := s.eng.cyc + 1#4, evValid := false } }) :=
  ⟨fun h => countEdges_last target (by omega), fun h => countEdges_inside target (by omega)⟩

/-- Settles O12: INIT_LOW is the timed phase of `N_SETTLE` edges. -/
theorem initLowCountsItsEdges : Obligations.InitLowCountsItsEdges := by
  intro s hp
  obtain ⟨⟨hn, -⟩, -⟩ := Params.wellFormed_iff.mp hp
  obtain ⟨hlast, hinside⟩ := countEdges_clauses hn Phase.ackWaitH1 s
  exact ⟨fun h => congrArg _ (hlast h), fun h => congrArg _ (hinside h)⟩

/-- Settles O13: SAMPLE_DELAY is the timed phase of `N_SAMPLE_DELAY` edges. -/
theorem sampleDelayCountsItsEdges : Obligations.SampleDelayCountsItsEdges := by
  intro s hp
  obtain ⟨-, hn, -⟩ := Params.wellFormed_iff.mp hp
  obtain ⟨hlast, hinside⟩ := countEdges_clauses hn Phase.sample s
  exact ⟨fun h => congrArg _ (hlast h), fun h => congrArg _ (hinside h)⟩

/-- A wait writes the event bit, and `phase` at the awaited level (R115 to R118). -/
theorem waitLevel_eq (want : Bool) (target : BitVec 4) (s : State) :
    waitLevel want target s = { s with eng := { s.eng with
      evValid := false, phase := if s.env.lineI = want then target else s.eng.phase } } := by
  by_cases hl : s.env.lineI = want
  · rw [waitLevel_seen target hl, if_pos hl]; rfl
  · rw [waitLevel_unseen target hl, if_neg hl]; rfl

/-- Settles O14: four of the waits are `waitLevel`, and BIT_WAIT_H also sets `cyc` at the level it awaits. -/
theorem waitsMoveOnAtTheAwaitedLevel : Obligations.WaitsMoveOnAtTheAwaitedLevel := by
  intro s
  refine ⟨congrArg _ (waitLevel_eq true _ s), congrArg _ (waitLevel_eq false _ s), congrArg _ (waitLevel_eq true _ s),
    congrArg _ (waitLevel_eq false _ s), ?bitWaitH⟩
  rw [exec_bitWaitH]
  cases s.env.lineI <;> rfl

/-! ### SAMPLE -/

/-- Settles O15 in the three cases of SAMPLE: inside a byte, at the end of a byte, at the end of the frame. -/
theorem sampleShiftsAndEmits : Obligations.SampleShiftsAndEmits := by
  intro s
  have hshift := shiftIn_toNat s.eng.shreg s.env.lineI
  by_cases hbit : s.eng.bitcnt = 7#3
  · have hlast : ¬ s.eng.bitcnt.toNat < 7 := by rw [hbit]; decide
    by_cases hbyte : s.eng.bytecnt = 4#3
    · exact ⟨_, exec_sample_frame hbit hbyte, rfl, rfl, rfl, rfl, rfl, hshift, fun h => absurd h hlast,
        fun _ => ⟨rfl, rfl, rfl, fun h => absurd hbyte h, fun _ => ⟨rfl, rfl, rfl, rfl⟩⟩⟩
    · exact ⟨_, exec_sample_byte hbit hbyte, rfl, rfl, rfl, rfl, rfl, hshift, fun h => absurd h hlast,
        fun _ => ⟨rfl, rfl, rfl, fun _ => ⟨rfl, rfl⟩, fun h => absurd h hbyte⟩⟩
  · have hcount : s.eng.bitcnt.toNat < 7 → (s.eng.bitcnt + 1#3).toNat = s.eng.bitcnt.toNat + 1 := by
      intro h; bv_omega
    exact ⟨_, exec_sample_inside hbit, rfl, rfl, rfl, rfl, rfl, hshift, fun h => ⟨hcount h, rfl, rfl, rfl, rfl⟩,
      fun h => absurd (BitVec.eq_of_toNat_eq h) hbit⟩

end Sys2Proof.Machine
end

section
/-! PROOFS of the timing engine family, runs of edges: the initiation pulse, a stalled wait, and the pulse whose length
is the bit (40_timing_engine R114, R119 to R124, R27). -/

namespace Sys2Proof.Machine

/-! ### The line outputs -/

/-- In a phase that awaits a level the line is released (R27). -/
theorem lineOe_of_awaits {s : State} {l : Bool} (h : awaits s.eng.phase = some l) : lineOe s = false := by
  obtain ⟨-, -, hreleased⟩ := lineOutputsByPhase s
  exact (hreleased (by rintro hc; rw [hc] at h; cases h) (by rintro hc; rw [hc] at h; cases h)).1

/-! ### Driving by levels, whatever `cyc` holds -/

/-- The operation of a phase that awaits the level `l`: at that level the phase moves on by one, BIT_WAIT_H setting
`cyc` to 0 as well, and at the other level nothing but the event bit changes (R115 to R119). -/
theorem exec_awaiting {c : BitVec 4} {l : Bool} (h : awaits c = some l) :
    ∃ i, decodePhase c = .ok i ∧ ∀ s : State, exec i s = .next (s.withEng
      (if s.env.lineI = l then
        { s.eng.noEvent with phase := c + 1#4, cyc := if c = Phase.bitWaitH then 0#4 else s.eng.cyc }
      else s.eng.noEvent)) := by
  unfold awaits at h
  split at h
  case isTrue hc =>
    cases h
    rcases hc with rfl | rfl | rfl
    · exact ⟨.ackWaitH1, rfl, fun _ => rfl⟩
    · exact ⟨.ackWaitH2, rfl, fun _ => rfl⟩
    · exact ⟨.bitWaitH, rfl, fun _ => rfl⟩
  case isFalse =>
    split at h
    case isTrue hc =>
      cases h
      rcases hc with rfl | rfl
      · exact ⟨.ackWaitL, rfl, fun _ => rfl⟩
      · exact ⟨.bitWaitL, rfl, fun _ => rfl⟩
    case isFalse => cases h

section
variable {p : Params} {e e' : Engine} {a a' : Assembler}

/-- A wait stays as it is for any number of edges at the other level, with any `cyc` (R123). -/
theorem drives_stall {l : Bool} (hq : e.evValid = false) (hw : awaits e.phase = some l) (n : Nat) :
    Drives p (levelMoves (List.replicate n (!l))) e a e a := by
  obtain ⟨i, hd, hx⟩ := exec_awaiting hw
  refine drives_still fun l' hl' => drives_edge hq hd fun s hs _ hline => ?_
  obtain rfl : l' = !l := List.eq_of_mem_replicate hl'
  subst hs
  rw [hx s, hline, if_neg (by cases l <;> decide), Engine.noEvent_of_quiet hq]

/-- The awaited level moves the phase on, with any `cyc` (R115 to R119). -/
theorem drives_awaited {l : Bool} (hq : e.evValid = false) (hw : awaits e.phase = some l) :
    Drives p (levelMoves [l]) e a
      { e with phase := e.phase + 1#4, cyc := if e.phase = Phase.bitWaitH then 0#4 else e.cyc } a := by
  obtain ⟨i, hd, hx⟩ := exec_awaiting hw
  refine drives_edge hq hd fun s hs _ hline => ?_
  subst hs
  rw [hx s, if_pos hline, Engine.noEvent_of_quiet hq]

/-- Inside a timed phase every edge counts, at whatever levels (R114, R120). -/
theorem drives_counting {i : Instr} {n : Nat} {target : BitVec 4}
    (hx : ∀ s : State, s.par = p → exec i s = .next (countEdges n target s)) (hn : n ≤ 16) (ls : List Bool)
    (hq : e.evValid = false) (hd : decodePhase e.phase = .ok i) (hlen : e.cyc.toNat + ls.length < n) :
    Drives p (levelMoves ls) e a { e with cyc := e.cyc + BitVec.ofNat 4 ls.length } a := by
  induction ls generalizing e with
  | nil =>
    rw [List.length_nil, BitVec.add_zero]
    exact drives_nil
  | cons l ls ih =>
    rw [List.length_cons] at hlen
    have hcyc : (e.cyc + 1#4).toNat = e.cyc.toNat + 1 := by bv_omega
    have hfirst : Drives p (levelMoves [l]) e a { e with cyc := e.cyc + 1#4 } a := by
      refine drives_edge hq hd fun s hs hpar _ => ?_
      subst hs
      rw [hx s hpar, countEdges_inside target (by omega), Engine.noEvent_of_quiet hq]
    have hrest := ih (e := { e with cyc := e.cyc + 1#4 }) hq hd (by simp only [hcyc]; omega)
    have hsum : e.cyc + BitVec.ofNat 4 (ls.length + 1) = e.cyc + 1#4 + BitVec.ofNat 4 ls.length := by bv_omega
    rw [List.length_cons, hsum]
    exact hfirst.append hrest

/-- What driving says of a run: from a state with these registers and an idle host, one step a level. -/
theorem Drives.run {s : State} {ls : List Bool} {rest : List Move} (h : Drives s.par (levelMoves ls) s.eng s.asm e' a')
    (hc : s.host.coord = .idle) (hs : s.env.stimulus = levelMoves ls ++ rest) :
    ∃ t, runSteps ls.length s = .next t ∧ t.eng = e' ∧ t.asm = a' := by
  obtain ⟨t, ht, hblock⟩ := h s rest ⟨rfl, hc, rfl, rfl, hs⟩
  exact ⟨t, by rw [← ht, levelMoves, List.length_map], hblock.eng, hblock.asm⟩

end

/-- The first `k` levels of a stimulus may be played by themselves. -/
theorem levelMoves_take_append {ls : List Bool} {ms rest : List Move} (k : Nat) (h : ms = levelMoves ls ++ rest) :
    ms = levelMoves (ls.take k) ++ (levelMoves (ls.drop k) ++ rest) := by
  rw [← List.append_assoc, levelMoves, levelMoves, ← List.map_append, List.take_append_drop]
  exact h

/-! ### The initiation pulse -/

/-- Settles O19: fewer than `N_SETTLE` edges count inside the pulse, and edge `N_SETTLE` ends it. -/
theorem initiationPulseLasts : Obligations.InitiationPulseLasts := by
  intro s ls rest hp hc hs hphase hcyc hq
  obtain ⟨⟨hpos, hle⟩, -⟩ := Params.wellFormed_iff.mp hp
  have hd : decodePhase s.eng.phase = .ok .initLow := by rw [hphase]; rfl
  have hx : ∀ u : State, u.par = s.par → exec .initLow u = .next (countEdges s.par.nSettle Phase.ackWaitH1 u) := by
    rintro u hu; rw [← hu]; rfl
  refine ⟨fun k hk hlt => ?inside, fun hlen => ?last⟩
  case inside =>
    have hk' : (ls.take k).length = k := List.length_take_of_le hk
    have hdrive := drives_counting (a := s.asm) hx hle (ls.take k) hq hd (by rw [hcyc, hk']; simpa using hlt)
    obtain ⟨t, ht, heng, -⟩ := hdrive.run hc (levelMoves_take_append k hs)
    have htphase : t.eng.phase = Phase.initLow := by rw [heng]; exact hphase
    obtain ⟨-, hlow, -⟩ := lineOutputsByPhase t
    refine ⟨t, by rw [← ht, hk'], htphase, ?_, hlow htphase⟩
    rw [heng, hcyc, hk', BitVec.zero_add, BitVec.toNat_ofNat]
    exact Nat.mod_eq_of_lt (by omega)
  case last =>
    have hk : (ls.take s.par.nSettle).length = s.par.nSettle := List.length_take_of_le hlen
    obtain ⟨l, ls', hcons⟩ := List.exists_cons_of_length_pos (hk ▸ hpos)
    have hlen' : s.eng.cyc.toNat + (ls'.length + 1) = s.par.nSettle := by
      rw [← List.length_cons (a := l), ← hcons, hk, hcyc]; simp
    have hdrive := drives_timed (a := s.asm) hx hle l ls' hq hd hlen'
    rw [← hcons] at hdrive
    obtain ⟨t, ht, heng, hasm⟩ := hdrive.run hc (levelMoves_take_append _ hs)
    have htphase : t.eng.phase = Phase.ackWaitH1 := by rw [heng]
    exact ⟨t, by rw [← ht, hk], htphase, by rw [heng], lineOe_of_awaits (l := true) (by rw [htphase]; rfl), hasm⟩

/-! ### A stalled wait -/

/-- Settles O21: the edges of the stall leave the block as it is, and the awaited level moves the phase on. -/
theorem stallKeepsTheBlock : Obligations.StallKeepsTheBlock := by
  intro s n l rest hc hq hw hs
  refine ⟨fun k hk => ?stalled, ?resumed⟩
  case stalled =>
    have hdrive := drives_stall (p := s.par) (a := s.asm) hq hw k
    have htake : (List.replicate n (!l)).take k = List.replicate k (!l) := by
      rw [List.take_replicate, Nat.min_eq_left hk]
    have hs' := levelMoves_take_append k hs
    rw [htake] at hs'
    obtain ⟨t, ht, heng, hasm⟩ := hdrive.run hc hs'
    exact ⟨t, by rw [← ht, List.length_replicate], heng, hasm, lineOe_of_awaits (l := l) (by rw [heng]; exact hw)⟩
  case resumed =>
    have hdrive := (drives_stall (p := s.par) (a := s.asm) hq hw n).append (drives_awaited hq hw)
    rw [levelMoves, levelMoves, ← List.map_append] at hdrive
    obtain ⟨t, ht, heng, hasm⟩ := Drives.run (rest := rest) hdrive hc (by rw [hs]; simp [levelMoves])
    exact ⟨t, by rw [← ht]; simp, by rw [heng], by rw [heng], by rw [heng], by rw [heng], hasm⟩

/-! ### The length of a pulse -/

/-- From the wait for a pulse, a high level and `N_SAMPLE_DELAY` levels after it bring SAMPLE (R119, R120). -/
theorem drives_to_strobe {p : Params} {e : Engine} {a : Assembler} (hp : p.wellFormed = true)
    (hc : e.phase = Phase.bitWaitH) (hq : e.evValid = false) {ls : List Bool} (hlen : ls.length = p.nSampleDelay) :
    Drives p (levelMoves (true :: ls)) e a { e with phase := Phase.sample, cyc := 0#4 } a := by
  obtain ⟨-, hpos, hle⟩ := Params.wellFormed_iff.mp hp
  have hx : ∀ u : State, u.par = p → exec .sampleDelay u = .next (countEdges p.nSampleDelay Phase.sample u) := by
    rintro u rfl; rfl
  have hdetect : Drives p (levelMoves [true]) e a { e with phase := Phase.sampleDelay, cyc := 0#4 } a := by
    have h := drives_awaited (p := p) (a := a) (l := true) hq (by rw [hc]; rfl)
    rwa [hc] at h
  obtain ⟨l, ls', rfl⟩ := List.exists_cons_of_length_pos (hlen ▸ hpos)
  exact hdetect.append (drives_timed hx hle l ls' hq rfl (by simpa using hlen))

/-- SAMPLE shifts the level in and leaves its phase, in each of its three cases (R121). -/
theorem exec_sample_shifts (e : Engine) (l : Bool) : ∃ e' : Engine,
    (∀ s : State, s.eng = e → s.env.lineI = l → exec .sample s = .next (s.withEng e')) ∧
    e'.shreg = shiftIn e.shreg l ∧ e'.phase ≠ Phase.sample := by
  by_cases hbit : e.bitcnt = 7#3
  · by_cases hbyte : e.bytecnt = 4#3
    · exact ⟨_, fun s he hl => by rw [exec_sample_frame (he ▸ hbit) (he ▸ hbyte), he, hl], rfl,
        show Phase.idle ≠ Phase.sample by decide⟩
    · exact ⟨_, fun s he hl => by rw [exec_sample_byte (he ▸ hbit) (he ▸ hbyte), he, hl], rfl,
        show Phase.bitWaitL ≠ Phase.sample by decide⟩
  · exact ⟨_, fun s he hl => by rw [exec_sample_inside (he ▸ hbit), he, hl], rfl,
      show Phase.bitWaitL ≠ Phase.sample by decide⟩

/-- The level at edge `d + 2` of a pulse of `m` edges followed by a low line is high exactly when the pulse reaches
that far; before it stand the detect edge and `d` more. -/
theorem pulse_levels {m n d : Nat} (hm : 1 ≤ m) (hlen : d + 2 ≤ m + n) :
    ∃ ls ls' : List Bool, ls.length = d ∧
      List.replicate m true ++ List.replicate n false = (true :: ls) ++ decide (d + 2 ≤ m) :: ls' := by
  obtain ⟨m, rfl⟩ : ∃ m', m = m' + 1 := ⟨m - 1, by omega⟩
  have hd : d < (List.replicate m true ++ List.replicate n false).length := by simp; omega
  have hlevel : (List.replicate m true ++ List.replicate n false)[d] = decide (d + 2 ≤ m + 1) := by
    rw [List.getElem_append]
    simp
  refine ⟨_, (List.replicate m true ++ List.replicate n false).drop (d + 1), List.length_take_of_le hd.le, ?_⟩
  rw [← hlevel, List.cons_append, ← List.drop_eq_getElem_cons hd, List.take_append_drop]
  rfl

/-- Settles O20: SAMPLE comes `N_SAMPLE_DELAY + 1` edges after the detect edge and shifts in the level that stands
there, which is the pulse's while the pulse lasts. -/
theorem pulseLengthDecidesTheBit : Obligations.PulseLengthDecidesTheBit := by
  intro s m n rest hp hc hphase hq hm hlen hs
  obtain ⟨ls, ls', hls, hsplit⟩ := pulse_levels hm hlen
  have hpulse : s.env.stimulus = levelMoves (List.replicate m true ++ List.replicate n false) ++ rest := by
    rw [hs, levelMoves, List.map_append, List.map_replicate, List.map_replicate]; rfl
  rw [hsplit] at hpulse
  have hstrobe := drives_to_strobe (a := s.asm) hp hphase hq hls
  obtain ⟨e', hx, hshreg, hnext⟩ := exec_sample_shifts
    { s.eng with phase := Phase.sample, cyc := 0#4 } (decide (s.par.nSampleDelay + 2 ≤ m))
  have hsample := hstrobe.append (drives_edge hq rfl fun u hu _ hl => hx u hu hl)
  rw [levelMoves, levelMoves, ← List.map_append] at hsample
  refine ⟨?strobe, ?sampled⟩
  case strobe =>
    obtain ⟨u, hu, heng, -⟩ := hstrobe.run
      (rest := levelMoves (decide (s.par.nSampleDelay + 2 ≤ m) :: ls') ++ rest) hc
      (by rw [hpulse]; simp [levelMoves])
    exact ⟨u, by rw [← hu, List.length_cons, hls], by rw [heng], by rw [heng]⟩
  case sampled =>
    obtain ⟨t, ht, heng, -⟩ := Drives.run (rest := levelMoves ls' ++ rest) hsample hc
      (by rw [hpulse]; simp [levelMoves])
    refine ⟨t, by rw [← ht]; simp [hls], by rw [heng]; exact hnext, ?_⟩
    rw [heng, hshreg, shiftIn_toNat]
    by_cases h : s.par.nSampleDelay + 2 ≤ m <;> simp [h]

end Sys2Proof.Machine
end

section
/-! PROOFS of the timing engine family: the least number of edges a frame takes (40_timing_engine R112, R114 to R121,
R125). -/

namespace Sys2Proof.Machine

/-! ### The earliest edge for the engine's registers

The registers tell how far a frame has come, and so the least number of edges from START after which they can hold what
they hold, with every awaited level there at once. The key fact is that an edge raises this number by one at most. -/

/-- The edges a frame takes at least: the pulse, three waits of the acknowledgment, forty bits, and the edge that stores
the last byte (R125). -/
def frameEdges (p : Params) : Nat := p.nSettle + 4 + 40 * (p.nSampleDelay + 3)

/-- The edges from START to the first one of a phase, with no bit taken yet. -/
def phaseStart (p : Params) (c : BitVec 4) : Nat :=
  if c = Phase.initLow then 0
  else if c = Phase.sample then p.nSettle + 5 + p.nSampleDelay
  else p.nSettle + (c.toNat - 2)

@[simp] theorem phaseStart_initLow (p : Params) : phaseStart p Phase.initLow = 0 := rfl
@[simp] theorem phaseStart_ackWaitH1 (p : Params) : phaseStart p Phase.ackWaitH1 = p.nSettle := rfl
@[simp] theorem phaseStart_bitWaitL (p : Params) : phaseStart p Phase.bitWaitL = p.nSettle + 3 := rfl
@[simp] theorem phaseStart_sampleDelay (p : Params) : phaseStart p Phase.sampleDelay = p.nSettle + 5 := rfl
@[simp] theorem phaseStart_sample (p : Params) : phaseStart p Phase.sample = p.nSettle + 5 + p.nSampleDelay := rfl

/-- The bits of the frame sampled so far (R23, R24). -/
def Engine.bitsTaken (e : Engine) : Nat := 8 * e.bytecnt.toNat + e.bitcnt.toNat

/-- The least number of edges from START to these registers, outside `P_IDLE`. -/
def Engine.earliest (p : Params) (e : Engine) : Nat :=
  phaseStart p e.phase + e.cyc.toNat + e.bitsTaken * (p.nSampleDelay + 3)

/-- The registers are not ahead of `k` edges from START; in `P_IDLE` only an event, that of the last byte, tells of a
frame. -/
structure EngineAge (p : Params) (k : Nat) (e : Engine) : Prop where
  active : e.phase ≠ Phase.idle → e.earliest p ≤ k
  pending : e.phase = Phase.idle → e.evValid = true → frameEdges p ≤ k + 1

theorem EngineAge.succ {p : Params} {k : Nat} {e : Engine} (h : EngineAge p k e) : EngineAge p (k + 1) e :=
  ⟨fun hne => Nat.le_succ_of_le (h.active hne), fun hi hv => Nat.le_succ_of_le (h.pending hi hv)⟩

theorem engineAge_of_active {p : Params} {k : Nat} {e : Engine} (hne : e.phase ≠ Phase.idle)
    (h : e.earliest p ≤ k) : EngineAge p k e :=
  ⟨fun _ => h, fun hi => absurd hi hne⟩

/-- A quiet `P_IDLE` tells nothing. -/
theorem engineAge_of_quiet_idle {p : Params} {k : Nat} {e : Engine} (hi : e.phase = Phase.idle)
    (hq : e.evValid = false) : EngineAge p k e :=
  ⟨fun hne => absurd hi hne, fun _ hv => absurd hv (by simp [hq])⟩

/-- START begins at edge 0 (R112). -/
theorem engineAge_of_start (p : Params) (k : Nat) : EngineAge p k { Engine.reset with phase := Phase.initLow } :=
  engineAge_of_active (show Phase.initLow ≠ Phase.idle by decide)
    (by simp [Engine.earliest, Engine.bitsTaken, Engine.reset])

/-! ### A phase operation moves the earliest edge on by one at most -/

/-- The phases by what their operation does: rest, count edges, sample, or wait for a level. -/
theorem phase_kinds {c : BitVec 4} (h : c.toNat ≤ 8) :
    c = Phase.idle ∨ c = Phase.initLow ∨ c = Phase.sampleDelay ∨ c = Phase.sample ∨ ∃ l, awaits c = some l := by
  revert c; decide

/-- The phase after a wait begins one edge after the wait does (R115 to R119). -/
theorem phaseStart_succ {c : BitVec 4} {l : Bool} (h : awaits c = some l) (p : Params) :
    phaseStart p (c + 1#4) = phaseStart p c + 1 ∧ c + 1#4 ≠ Phase.idle := by
  have hwait : ∀ c : BitVec 4, (awaits c).isSome → (c ≠ Phase.initLow ∧ c ≠ Phase.sample) ∧
      (c + 1#4 ≠ Phase.initLow ∧ c + 1#4 ≠ Phase.sample) ∧ c + 1#4 ≠ Phase.idle ∧
      (c + 1#4).toNat = c.toNat + 1 ∧ 2 ≤ c.toNat := by decide
  obtain ⟨⟨hlow, hsample⟩, ⟨hlow', hsample'⟩, hidle, hsucc, hle⟩ := hwait c (by rw [h]; rfl)
  simp only [phaseStart, if_neg hlow, if_neg hsample, if_neg hlow', if_neg hsample', hsucc]
  exact ⟨by omega, hidle⟩

section
variable {s : State} {k : Nat}

/-- A wait moves on to the phase one edge later, or stays (R115 to R119). -/
theorem engineAge_wait {i : Instr} {l : Bool} {t : State} (hw : awaits s.eng.phase = some l)
    (hd : decodePhase s.eng.phase = .ok i) (hx : exec i s = .next t) (h : s.eng.earliest s.par ≤ k) :
    EngineAge s.par (k + 1) t.eng := by
  obtain ⟨j, hj, hexec⟩ := exec_awaiting hw
  cases hj.symm.trans hd
  cases (hexec s).symm.trans hx
  obtain ⟨hstart, hidle⟩ := phaseStart_succ hw s.par
  have hne : s.eng.phase ≠ Phase.idle := by rintro hc; rw [hc] at hw; cases hw
  by_cases hl : s.env.lineI = l
  · rw [if_pos hl]
    refine engineAge_of_active hidle ?_
    have hcyc : (if s.eng.phase = Phase.bitWaitH then 0#4 else s.eng.cyc).toNat ≤ s.eng.cyc.toNat := by
      split <;> simp
    simp only [Engine.earliest, Engine.bitsTaken, State.withEng_eng, Engine.noEvent_bitcnt,
      Engine.noEvent_bytecnt] at h ⊢
    omega
  · rw [if_neg hl]
    exact engineAge_of_active hne (Nat.le_succ_of_le h)

/-- A timed phase of `n` edges moves on to a phase `n` edges later, or counts (R114, R120). -/
theorem engineAge_countEdges {n : Nat} {target : BitVec 4}
    (hstart : phaseStart s.par target = phaseStart s.par s.eng.phase + n) (hidle : target ≠ Phase.idle)
    (hne : s.eng.phase ≠ Phase.idle) (h : s.eng.earliest s.par ≤ k) :
    EngineAge s.par (k + 1) (countEdges n target s).eng := by
  by_cases hlast : s.eng.cyc.toNat + 1 = n
  · rw [countEdges_last target hlast]
    refine engineAge_of_active hidle ?_
    simp only [Engine.earliest, Engine.bitsTaken, State.withEng_eng, Engine.noEvent_bitcnt, Engine.noEvent_bytecnt,
      BitVec.toNat_ofNat] at h ⊢
    omega
  · rw [countEdges_inside target hlast]
    refine engineAge_of_active hne ?_
    have hcyc : (s.eng.cyc + 1#4).toNat ≤ s.eng.cyc.toNat + 1 := by bv_omega
    simp only [Engine.earliest, Engine.bitsTaken, State.withEng_eng, Engine.noEvent_phase, Engine.noEvent_bitcnt,
      Engine.noEvent_bytecnt] at h ⊢
    omega

/-- From SAMPLE with one more bit taken to `P_BIT_WAIT_L` is one edge (R121). -/
theorem earliest_next_bit {p : Params} {e e' : Engine} (hc : e.phase = Phase.sample)
    (hc' : e'.phase = Phase.bitWaitL) (hcyc : e'.cyc = e.cyc) (hbits : e'.bitsTaken ≤ e.bitsTaken + 1) :
    e'.earliest p ≤ e.earliest p + 1 := by
  have hmul := Nat.mul_le_mul_right (p.nSampleDelay + 3) hbits
  rw [Nat.succ_mul] at hmul
  rw [Engine.earliest, Engine.earliest, hc, hc', hcyc, phaseStart_bitWaitL, phaseStart_sample]
  omega

/-- SAMPLE takes one more bit, and the fortieth ends the frame but for its last byte (R121). -/
theorem engineAge_sample {t : State} (hc : s.eng.phase = Phase.sample) (hx : exec .sample s = .next t)
    (h : s.eng.earliest s.par ≤ k) : EngineAge s.par (k + 1) t.eng := by
  have hnext : ∀ e : Engine, e.phase = Phase.bitWaitL → e.cyc = s.eng.cyc → e.bitsTaken ≤ s.eng.bitsTaken + 1 →
      EngineAge s.par (k + 1) e := fun e he hcyc hbits =>
    engineAge_of_active (by rw [he]; decide) ((earliest_next_bit hc he hcyc hbits).trans (Nat.succ_le_succ h))
  by_cases hbit : s.eng.bitcnt = 7#3
  · by_cases hbyte : s.eng.bytecnt = 4#3
    · cases (exec_sample_frame hbit hbyte).symm.trans hx
      refine ⟨fun hne => absurd rfl hne, fun _ _ => ?_⟩
      have hbits : s.eng.bitsTaken = 39 := by rw [Engine.bitsTaken, hbit, hbyte]; rfl
      rw [Engine.earliest, hc, hbits, phaseStart_sample] at h
      rw [frameEdges]
      omega
    · cases (exec_sample_byte hbit hbyte).symm.trans hx
      refine hnext _ rfl rfl ?_
      have hbytes : (s.eng.bytecnt + 1#3).toNat ≤ s.eng.bytecnt.toNat + 1 := by bv_omega
      simp only [Engine.bitsTaken, State.withEng_eng, hbit, BitVec.toNat_ofNat]
      omega
  · cases (exec_sample_inside hbit).symm.trans hx
    refine hnext _ rfl rfl ?_
    have hbits : (s.eng.bitcnt + 1#3).toNat ≤ s.eng.bitcnt.toNat + 1 := by bv_omega
    simp only [Engine.bitsTaken, State.withEng_eng, Engine.noEvent_bytecnt]
    omega

/-- Every operation of a quiet engine takes one edge of its age at most (R110). -/
theorem engineAge_exec {i : Instr} {t : State} (hlegal : s.eng.phase.toNat ≤ 8) (hq : s.eng.evValid = false)
    (hd : decodePhase s.eng.phase = .ok i) (hx : exec i s = .next t) (h : EngineAge s.par k s.eng) :
    EngineAge s.par (k + 1) t.eng := by
  by_cases hne : s.eng.phase = Phase.idle
  case pos =>
    rw [hne] at hd
    cases hd
    cases (exec_idle_of_quiet hne hq).symm.trans hx
    exact h.succ
  have hold := h.active hne
  rcases phase_kinds hlegal with hc | hc | hc | hc | ⟨l, hw⟩
  · exact absurd hc hne
  · rw [hc] at hd
    cases hd
    cases hx
    exact engineAge_countEdges (by simp [hc]) (by decide) hne hold
  · rw [hc] at hd
    cases hd
    cases hx
    exact engineAge_countEdges (by simp [hc]) (by decide) hne hold
  · rw [hc] at hd
    cases hd
    exact engineAge_sample hc hx hold
  · exact engineAge_wait hw hd hx hold

end

/-! ### A frame is not ahead of the edges since START -/

/-- At `k` steps from START: the block's invariant, the engine's age, and a full frame only with the edges it takes. -/
structure FrameAge (p : Params) (k : Nat) (s : State) : Prop where
  par : s.par = p
  legal : p.wellFormed = true
  block : BlockInv s
  buffer : BufferInv s
  engine : EngineAge p k s.eng
  full : s.asm.count = 5#3 → frameEdges p ≤ k

section
variable {p : Params} {s t : State} {k : Nat}

theorem FrameAge.of_parts (h : FrameAge p k s) (he : t.eng = s.eng) (ha : t.asm = s.asm) (hp : t.par = s.par) :
    FrameAge p k t :=
  ⟨hp.trans h.par, h.legal, h.block.of_parts he ha hp, h.buffer.of_asm ha, by rw [he]; exact h.engine,
    by rw [ha]; exact h.full⟩

theorem FrameAge.succ (h : FrameAge p k s) : FrameAge p (k + 1) s :=
  ⟨h.par, h.legal, h.block, h.buffer, h.engine.succ, fun hfull => Nat.le_succ_of_le (h.full hfull)⟩

/-- A block that START or RESET has just cleared holds no frame (R111, R112). -/
theorem frameAge_of_cleared (hpar : s.par = p) (hp : p.wellFormed = true) (ha : s.asm = Assembler.cleared)
    (hblock : BlockInv s) (hage : EngineAge p k s.eng) : FrameAge p k s :=
  ⟨hpar, hp, hblock, bufferInv_of_cleared ha, hage,
    fun hfull => absurd hfull (by rw [ha]; decide)⟩

/-- Whatever the count of steps, START is early enough (R112). -/
theorem frameAge_of_start (hp : s.par.wellFormed = true) (ht : exec .start s = .next t) : FrameAge s.par k t := by
  cases ht
  exact frameAge_of_cleared rfl hp rfl (blockInv_of_start hp rfl rfl) (engineAge_of_start _ _)

/-- An edge without command runs the phase operation on a quiet engine, a pending event being stored first. -/
theorem FrameAge.phaseEdge_engine (h : FrameAge p k s) (ht : phaseEdge s = .next t) : EngineAge p (k + 1) t.eng := by
  obtain rfl := h.par
  obtain ⟨i, hi, ⟨hv, hx⟩ | ⟨hv, u, hu, hx⟩⟩ := phaseEdge_cases ht
  · exact engineAge_exec h.block.phase_legal hv hi hx h.engine
  · rw [exec_append_frame hu] at hx
    have hquiet : EngineAge s.par k s.eng.noEvent :=
      ⟨h.engine.active, fun _ hv' => absurd hv' Bool.false_ne_true⟩
    exact engineAge_exec (s := (s.withAsm u.asm).withEng s.eng.noEvent) h.block.phase_legal rfl hi
      ((exec_phase_noEvent hi (s.withAsm u.asm)).trans hx) hquiet

/-- The byte that fills the frame was pending in `P_IDLE`: elsewhere `bytecnt` is ahead of `count`. -/
theorem FrameAge.phaseEdge_full (h : FrameAge p k s) (ht : phaseEdge s = .next t) (hfull : t.asm.count = 5#3) :
    frameEdges p ≤ k + 1 := by
  cases hv : s.eng.evValid with
  | false =>
    rw [phaseEdge_asm_quiet ht hv] at hfull
    exact Nat.le_succ_of_le (h.full hfull)
  | true =>
    obtain ⟨hcount, -⟩ := phaseEdge_asm_event ht h.buffer.canonical hv
    have h5 : t.asm.count.toNat = 5 := by rw [hfull]; rfl
    have hle := h.block.bytecnt_le
    have hidle : s.eng.phase = Phase.idle := by
      by_contra hne
      have hevent := h.block.count_event hne hv
      omega
    exact h.engine.pending hidle hv

/-- RESET leaves no frame, START begins one, and without a command the frame moves on. -/
theorem FrameAge.blockEdge {w : BitVec 3} (h : FrameAge p k s) (ht : blockEdge w s = .next t) :
    FrameAge p (k + 1) t := by
  obtain ⟨-, -, hpar⟩ := blockEdge_frame ht
  have hp : s.par.wellFormed = true := by rw [h.par]; exact h.legal
  rcases blockEdge_cases ht with ⟨-, hx⟩ | ⟨-, -, hx⟩ | ⟨-, -, hx⟩
  · cases hx
    exact frameAge_of_cleared h.par h.legal rfl (blockInv_of_reset rfl rfl) (engineAge_of_quiet_idle rfl rfl)
  · rw [← h.par]
    exact frameAge_of_start hp hx
  · exact ⟨hpar.trans h.par, h.legal, h.block.phaseEdge hp h.buffer.canonical hx, h.buffer.phaseEdge hx,
      h.phaseEdge_engine hx, h.phaseEdge_full hx⟩

/-- A step is an edge, or leaves the block as it is. -/
theorem FrameAge.step (h : FrameAge p k s) (ht : step s = .next t) : FrameAge p (k + 1) t := by
  rcases step_kinds ht with ⟨-, rfl⟩ | ⟨w, r, hr, hx⟩ | hb
  · exact h.succ.of_parts rfl rfl rfl
  · obtain ⟨u, hu, rfl⟩ := clockEdge_cases hx
    have hbefore : FrameAge p k (r.withEnv { r.env with lineI := w.getLsbD 0 }) := h.of_parts hr.eng hr.asm hr.par
    exact (hbefore.blockEdge hu).of_parts (hostEdge_eng u) (hostEdge_asm u) (hostEdge_par u)
  · exact h.succ.of_parts hb.eng hb.asm hb.par

end

/-- What every step keeps while it counts holds at the end of a run. -/
theorem runSteps_counts {P : Nat → State → Prop} (hstep : ∀ k s t, P k s → step s = .next t → P (k + 1) t)
    {j k : Nat} {s t : State} (h : P j s) (ht : runSteps k s = .next t) : P (j + k) t := by
  induction k generalizing j s with
  | zero => cases ht; exact h
  | succ k ih =>
    obtain ⟨u, hu, ht⟩ := andThen_eq_next.mp ht
    rw [← Nat.succ_add_eq_add_succ]
    exact ih (hstep j s u h hu) ht

/-- Settles O24: from START on no frame is ahead of the steps taken, so a full one has had the edges it takes. -/
theorem noFrameBeforeTheMinimum : Obligations.NoFrameBeforeTheMinimum := by
  intro s t u k hp ht hk hu hfull
  have hstart : FrameAge s.par 0 t := frameAge_of_start hp ht
  have hage : FrameAge s.par (0 + k) u := runSteps_counts (fun _ _ _ h hx => h.step hx) hstart hu
  have hmin : frameEdges s.par ≤ 0 + k := hage.full hfull
  rw [frameEdges] at hmin
  omega

end Sys2Proof.Machine
end

section
/-! PROOFS of the assembler family: what APPEND does with a cell left, without an event, and at an overrun
(41_byte_assembler R140, R142; 60_exceptions R209). -/

namespace Sys2Proof.Machine

/-- Without an event APPEND leaves everything (R140). -/
theorem exec_append_quiet {s : State} (hq : s.eng.evValid = false) (d : Byte) : exec (.append d) s = .next s := by
  simp [exec, execAppend, hq]

/-- No cell past the last takes a byte. -/
theorem memWrite_eq_none {m : Memory} {i : Nat} (h : bufCells ≤ i) (v : Byte) : memWrite m i v = none :=
  Option.not_isSome_iff_eq_none.mp fun hsome => Nat.not_lt.mpr h ((memWrite_isSome m i v).mp hsome)

/-- A pending event with no cell left is the overrun (R142). -/
theorem exec_append_overrun {s : State} (hv : s.eng.evValid = true) (hfull : bufCells ≤ s.asm.count.toNat) (d : Byte) :
    exec (.append d) s = .fault .overrun := by
  simp [exec, execAppend, hv, memWrite_eq_none hfull]

/-- Settles O26: with a cell left APPEND stores the byte, and what it answers is the law's `execAppend_next`; without an
event it leaves the state. -/
theorem appendWritesTheNextCell : Obligations.AppendWritesTheNextCell := by
  intro s d hwf
  refine ⟨fun hv hcount => ?_, fun hq => exec_append_quiet hq d⟩
  have hstore : exec (.append d) s = .next (s.withAsm (s.asm.store d)) := exec_append_store hv (Nat.lt_succ_of_le hcount)
  obtain ⟨-, hrest⟩ := execAppend_next hwf hv hstore
  exact ⟨_, hstore, hrest⟩

/-- Settles O27: a `count` of 5 or more names no cell. -/
theorem overrunIsAFault : Obligations.OverrunIsAFault :=
  fun _ d hv hfull => exec_append_overrun hv hfull d

end Sys2Proof.Machine
end

section
/-! PROOFS of the validator and decoder family: the three outcomes of DECODE, the numbers it gives, and its round trips
with ENCODE (42_validator_decoder R150 to R159). A valid frame is determined by the humidity, the sign and the magnitude
it carries, so both round trips compare these three. -/

namespace Sys2Proof.Machine

/-! ### The outcomes of DECODE -/

/-- A count other than 5 fails before the checksum is looked at (R151). -/
theorem decodeFrame_incomplete {n : BitVec 3} (hn : n ≠ 5#3) (f : Frame) :
    decodeFrame n f = .fail .incompleteFrame := by
  simp [decodeFrame, complete, hn]

/-- A complete frame with a failing checksum gives no values (R152). -/
theorem decodeFrame_mismatch {f : Frame} (hsum : checksumSum f % 256 ≠ f.b4.toNat) :
    decodeFrame 5#3 f = .fail .checksumMismatch := by
  simp [decodeFrame, complete, checksumOk, hsum]

/-- A complete frame with a passing checksum gives its humidity and its signed tenths (R153, R154). -/
theorem decodeFrame_valid {f : Frame} (hsum : checksumSum f % 256 = f.b4.toNat) :
    decodeFrame 5#3 f = .ok (rawHumidity f) (signedTenths f) := by
  simp [decodeFrame, complete, checksumOk, hsum]

/-- Settles O30: one equation for each outcome. -/
theorem decodeHasThreeOutcomes : Obligations.DecodeHasThreeOutcomes := by
  intro n f
  refine ⟨fun hn => decodeFrame_incomplete hn f, ?mismatch, ?valid⟩
  case mismatch =>
    rintro rfl hsum
    exact decodeFrame_mismatch hsum
  case valid =>
    rintro rfl hsum
    exact ⟨_, _, decodeFrame_valid hsum⟩

/-- Settles O35: the only write is the record of the operands and their outcome, the same at each evaluation. -/
theorem decodeWritesOnlyTheSnapshot : Obligations.DecodeWritesOnlyTheSnapshot :=
  fun n f s => ⟨s.withHost { s.host with snapshot := some ⟨n, f, decodeFrame n f⟩ }, rfl, rfl, rfl⟩

/-! ### The values in numbers -/

/-- The two bytes of the humidity in numbers (R153). -/
theorem rawHumidity_toNat (f : Frame) : (rawHumidity f).toNat = 256 * f.b0.toNat + f.b1.toNat := by
  rw [rawHumidity, BitVec.toNat_append, ← Nat.shiftLeft_add_eq_or_of_lt f.b1.isLt, Nat.shiftLeft_eq]
  omega

/-- Fifteen bits of magnitude and its negative both fit in 16 bits of two's complement (R154, R157). -/
theorem signedTenths_toInt (f : Frame) :
    (signedTenths f).toInt = if signBit f then -((rawMagnitude f).toNat : Int) else (rawMagnitude f).toNat := by
  have hlt : (rawMagnitude f).toNat < 32768 := (rawMagnitude f).isLt
  rw [signedTenths]
  split
  · rw [BitVec.toInt_eq_toNat_bmod, BitVec.toNat_neg, BitVec.toNat_setWidth_of_le (by decide), Int.bmod_def]
    omega
  · rw [BitVec.toInt_eq_toNat_bmod, BitVec.toNat_setWidth_of_le (by decide), Int.bmod_def]
    omega

/-- Negative zero decodes to zero (R154). -/
theorem signedTenths_negativeZero {f : Frame} (h2 : f.b2 = 0x80#8) (h3 : f.b3 = 0x00#8) : signedTenths f = 0#16 := by
  rw [signedTenths, signBit, rawMagnitude, h2, h3]
  decide

/-- Settles O31: the values are those of `decodeFrame_ok`. -/
theorem humidityIsTheFirstTwoBytes : Obligations.HumidityIsTheFirstTwoBytes := by
  intro n f h t hd
  obtain ⟨-, -, rfl, -⟩ := decodeFrame_ok hd
  exact rawHumidity_toNat f

/-- Settles O32: sign and magnitude in numbers; -32768 is out of reach of a magnitude of 15 bits. -/
theorem temperatureIsSignAndMagnitude : Obligations.TemperatureIsSignAndMagnitude := by
  intro n f h t hd
  obtain ⟨-, -, -, rfl⟩ := decodeFrame_ok hd
  have hb2 := f.b2.isLt
  have hb3 := f.b3.isLt
  have hval := signedTenths_toInt f
  rw [signBit_eq, rawMagnitude_toNat] at hval
  simp only [decide_eq_true_eq] at hval
  refine ⟨?positive, ?negative, ?lowest, ?negativeZero⟩
  case positive =>
    intro hpos
    rw [hval, if_neg (by omega)]
    omega
  case negative =>
    intro hneg
    rw [hval, if_pos hneg]
    omega
  case lowest =>
    intro hlowest
    have hint : (signedTenths f).toInt = -32768 := by rw [hlowest]; decide
    split at hval <;> omega
  case negativeZero =>
    exact signedTenths_negativeZero

/-! ### What ENCODE puts into a frame -/

section
variable (h : BitVec 16) (t : Int)

/-- The two humidity bytes are the halves of `h`. -/
theorem rawHumidity_encodeReading : rawHumidity (encodeReading h t) = h := by
  unfold rawHumidity encodeReading
  ext i hi
  grind

/-- The magnitude field is the low 15 bits of `|t|`. -/
theorem rawMagnitude_encodeReading : rawMagnitude (encodeReading h t) = BitVec.ofNat 15 t.natAbs := by
  unfold rawMagnitude encodeReading
  ext i hi
  grind

/-- The sign is set for a negative `t` only, so ENCODE makes no negative zero. -/
theorem signBit_encodeReading : signBit (encodeReading h t) = decide (t < 0) := by
  unfold signBit encodeReading
  grind

/-- ENCODE builds valid frames only (R159). -/
theorem checksum_encodeReading :
    checksumSum (encodeReading h t) % 256 = (encodeReading h t).b4.toNat :=
  (BitVec.toNat_ofNat _ 8).symm

end

/-- Tenths in range come back from the frame made of them (R159). -/
theorem signedTenths_encodeReading (h : BitVec 16) {t : Int} (hlow : -32767 ≤ t) (hhigh : t ≤ 32767) :
    (signedTenths (encodeReading h t)).toInt = t := by
  have hmag : t.natAbs % 2 ^ 15 = t.natAbs := Nat.mod_eq_of_lt (by omega)
  rw [signedTenths_toInt, signBit_encodeReading, rawMagnitude_encodeReading, BitVec.toNat_ofNat, hmag]
  simp only [decide_eq_true_eq]
  split <;> omega

/-! ### A valid frame is determined by humidity, sign and magnitude -/

/-- Two valid frames with the same three fields are equal: the fields fix four bytes, and these fix the checksum. -/
theorem frame_eq_of_fields {f g : Frame} (hhum : rawHumidity f = rawHumidity g) (hsign : signBit f = signBit g)
    (hmag : rawMagnitude f = rawMagnitude g) (hf : checksumSum f % 256 = f.b4.toNat)
    (hg : checksumSum g % 256 = g.b4.toNat) : f = g := by
  have hhum' := congrArg BitVec.toNat hhum
  have hmag' := congrArg BitVec.toNat hmag
  rw [rawHumidity_toNat, rawHumidity_toNat] at hhum'
  rw [rawMagnitude_toNat, rawMagnitude_toNat] at hmag'
  rw [signBit_eq, signBit_eq, decide_eq_decide] at hsign
  rw [checksumSum] at hf hg
  obtain ⟨f0, f1, f2, f3, f4⟩ := f
  obtain ⟨g0, g1, g2, g3, g4⟩ := g
  dsimp only at *
  obtain rfl : f0 = g0 := by bv_omega
  obtain rfl : f1 = g1 := by bv_omega
  obtain rfl : f2 = g2 := by bv_omega
  obtain rfl : f3 = g3 := by bv_omega
  obtain rfl : f4 = g4 := BitVec.eq_of_toNat_eq (hf.symm.trans hg)
  rfl

/-- The magnitude is that of the decoded temperature (R154). -/
theorem natAbs_signedTenths (f : Frame) : (signedTenths f).toInt.natAbs = (rawMagnitude f).toNat := by
  rw [signedTenths_toInt]
  split <;> omega

/-- ENCODE of the decoded values gives any valid frame of the same humidity and magnitude whose sign is set exactly when
the decoded temperature is negative (R159). -/
theorem encodeReading_eq_of_fields {f g : Frame} (hhum : rawHumidity g = rawHumidity f)
    (hmag : rawMagnitude g = rawMagnitude f) (hsign : signBit g = decide ((signedTenths f).toInt < 0))
    (hg : checksumSum g % 256 = g.b4.toNat) : encodeReading (rawHumidity f) (signedTenths f).toInt = g := by
  refine frame_eq_of_fields ?_ ?_ ?_ (checksum_encodeReading _ _) hg
  · rw [rawHumidity_encodeReading, hhum]
  · rw [signBit_encodeReading, hsign]
  · rw [rawMagnitude_encodeReading, natAbs_signedTenths, hmag, BitVec.ofNat_toNat, BitVec.setWidth_eq]

/-- Negative zero is the one reading whose sign bit is set on a temperature that is not negative (R154). -/
theorem signBit_eq_negative {f : Frame} (hf : ¬ (f.b2 = 0x80#8 ∧ f.b3 = 0x00#8)) :
    signBit f = decide ((signedTenths f).toInt < 0) := by
  rw [signedTenths_toInt, rawMagnitude_toNat, signBit_eq]
  have hzero : 128 ≤ f.b2.toNat → 0 < 256 * (f.b2.toNat % 128) + f.b3.toNat := by
    intro hneg
    by_contra hmag
    exact hf ⟨by bv_omega, by bv_omega⟩
  simp only [decide_eq_true_eq, decide_eq_decide]
  split <;> omega

/-- Every valid frame but negative zero comes back from ENCODE of DECODE (R159). -/
theorem encodeReading_of_valid {f : Frame} (hsum : checksumSum f % 256 = f.b4.toNat)
    (hf : ¬ (f.b2 = 0x80#8 ∧ f.b3 = 0x00#8)) : encodeReading (rawHumidity f) (signedTenths f).toInt = f :=
  encodeReading_eq_of_fields rfl rfl (signBit_eq_negative hf) hsum

/-- Negative zero comes back as zero, with the checksum of the cleared sign (R159). -/
theorem encodeReading_of_negativeZero {f : Frame} (hsum : checksumSum f % 256 = f.b4.toNat) (h2 : f.b2 = 0x80#8)
    (h3 : f.b3 = 0x00#8) : encodeReading (rawHumidity f) (signedTenths f).toInt =
      { f with b2 := 0x00#8, b4 := f.b4 - 0x80#8 } := by
  refine encodeReading_eq_of_fields rfl ?magnitude ?sign ?checksum
  case magnitude =>
    rw [rawMagnitude, rawMagnitude, h2]
    rfl
  case sign =>
    simp [signBit, signedTenths_negativeZero h2 h3]
  case checksum =>
    rw [checksumSum] at hsum ⊢
    bv_omega

/-- Settles O34: the values of a frame that ENCODE makes, and the frame ENCODE makes of a valid frame's values. -/
theorem encodeDecodeRoundTrip : Obligations.EncodeDecodeRoundTrip := by
  refine ⟨?encodeThenDecode, ?decodeThenEncode⟩
  case encodeThenDecode =>
    intro h t hlow hhigh
    refine ⟨_, ?_, signedTenths_encodeReading h hlow hhigh⟩
    rw [decodeFrame_valid (checksum_encodeReading h t), rawHumidity_encodeReading]
  case decodeThenEncode =>
    intro f h tt hd
    obtain ⟨-, hsum, rfl, rfl⟩ := decodeFrame_ok hd
    exact ⟨encodeReading_of_valid hsum, fun ⟨h2, h3⟩ => encodeReading_of_negativeZero hsum h2 h3⟩

end Sys2Proof.Machine
end

section
/-! PROOFS of the host family: public calls, the end of an acquisition, and what no step of the host undoes
(43_host_coordinator R172, R175 to R181, R186; 10_state R31, R32). -/

namespace Sys2Proof.Machine

/-! ### Public calls -/

/-- A call that must acquire moves an idle host to `Triggering` with the call in progress (R172). -/
theorem beginRead_of_mustAcquire {force : Bool} {s : State} (hc : s.host.coord = .idle) (hm : mustAcquire force s)
    (q : Request) : beginRead q force s = .next (s.withHost { s.host with coord := .triggering, call := some q }) := by
  have hneed : needAcquire force s.host s.par = true := (needAcquire_iff _ _ _).mpr hm
  rw [beginRead, hc]
  exact if_pos hneed

/-- A call that need not is answered from the cache (R172, R177 to R179). -/
theorem beginRead_of_fresh {force : Bool} {s : State} (hc : s.host.coord = .idle) (hm : ¬ mustAcquire force s)
    (q : Request) :
    beginRead q force s = .next (s.withHost { s.host with answer := some (answerOf q s.host.cache) }) := by
  have hneed : needAcquire force s.host s.par ≠ true := fun h => hm ((needAcquire_iff _ _ _).mp h)
  rw [beginRead, hc]
  exact if_neg hneed

/-- A call need not acquire only when there is a reading to answer it with (R172, R180). -/
theorem cached_of_fresh {force : Bool} {s : State} (hm : ¬ mustAcquire force s) : ∃ r, s.host.cache = some r :=
  Option.ne_none_iff_exists'.mp fun hnone => hm (.inr (.inl hnone))

/-- Settles O37: the three reads are one call with three requests, gated alike, and what a fresh reading answers is its
fields. -/
theorem readsAreGated : Obligations.ReadsAreGated := by
  intro s force hc
  refine ⟨fun hm => ?acquire, fun hm => ?fresh⟩
  case acquire =>
    have hread := beginRead_of_mustAcquire hc hm
    exact ⟨hread .temperature, hread .humidity, hread .both⟩
  case fresh =>
    obtain ⟨r, hr⟩ := cached_of_fresh hm
    have hread := beginRead_of_fresh hc hm
    rw [hr] at hread
    exact ⟨r, hr, hread .temperature, hread .humidity, hread .both⟩

/-- Outside `Idle` there is no such move (R181). -/
theorem beginRead_of_busy {s : State} (hc : s.host.coord ≠ .idle) (force : Bool) (q : Request) :
    beginRead q force s = .refused .overlappingCall := by
  rcases beginRead_cases q force s with ⟨hidle, -⟩ | ⟨hidle, -⟩ | ⟨-, h⟩
  · exact absurd hidle hc
  · exact absurd hidle hc
  · exact h

/-- Settles O38: the three reads are one call, refused while another is in progress. -/
theorem overlappingCallsAreRefused : Obligations.OverlappingCallsAreRefused := fun _ force hc =>
  have hread := beginRead_of_busy hc force
  ⟨hread .temperature, hread .humidity, hread .both⟩

/-! ### The end of an acquisition -/

/-- In `Decoding` the host's own move goes first (R175, entry 16). -/
theorem step_of_decoding {s : State} (hc : s.host.coord = .decoding) : step s = .next (finishAcquire s) := by
  rw [step, nextMove, if_pos hc]

@[simp] theorem finishAcquire_nowMs (s : State) : (finishAcquire s).host.nowMs = s.host.nowMs :=
  (returnToCaller_nowMs _).trans (actOn_nowMs _ _)

/-- The caller is answered from the cache as the host then holds it (R176 to R180). -/
theorem returnToCaller_answer {h : Coordinator} {q : Request} (hq : h.call = some q) :
    (returnToCaller h).answer = some (answerOf q (returnToCaller h).cache) := by
  rw [returnToCaller, hq]

/-- Settles O41: the two outcomes of the snapshot are the two things an acquisition leaves behind, and the return to the
caller follows both. -/
theorem decodingActsOnTheSnapshot : Obligations.DecodingActsOnTheSnapshot := by
  intro s hc
  refine ⟨_, step_of_decoding hc, rfl, rfl, rfl, rfl, returnToCaller_coord _, returnToCaller_call _,
    finishAcquire_nowMs s, fun f hf => ?failure, fun h tt hok => ?success, fun q hq => ?answer⟩
  case failure =>
    rcases finishAcquire_memory s with ⟨f', hr, hcache, hsink⟩ | ⟨_, _, hr, -⟩ <;> cases hr.symm.trans hf
    exact ⟨hcache, hsink⟩
  case success =>
    rcases finishAcquire_memory s with ⟨_, hr, -⟩ | ⟨_, _, hr, hcache, hsink⟩ <;> cases hr.symm.trans hok
    exact ⟨hcache, hsink⟩
  case answer => exact returnToCaller_answer ((actOn_call _ _).trans hq)

/-! ### What no step undoes -/

/-- Settles O43: a step leaves the cache or puts a new reading there, and what is read from a reading is a value. -/
theorem neverUnavailableAgain : Obligations.NeverUnavailableAgain := by
  intro s t hs h
  have hcached : t.host.cache.isSome = true := by
    rcases cacheChangesOnlyOnSuccess s t h with hkept | ⟨-, -, _, _, -, hnew⟩
    · rw [hkept]; exact hs
    · rw [hnew]; rfl
  obtain ⟨r, hr⟩ := Option.isSome_iff_exists.mp hcached
  refine ⟨hcached, fun q => ?_⟩
  rw [hr]
  cases q <;> simp [answerOf]

/-- A clock edge does not set the host's clock back, and leaves the parameters (R31, R186). -/
theorem clockEdge_clock {w : BitVec 3} {s t : State} (h : clockEdge w s = .next t) :
    s.host.nowMs ≤ t.host.nowMs ∧ t.par = s.par := by
  obtain ⟨u, hu, rfl⟩ := clockEdge_cases h
  obtain ⟨hhost, -, hpar⟩ := blockEdge_frame hu
  have hle := hostEdge_nowMs_le u
  rw [hhost] at hle
  exact ⟨hle, (hostEdge_par u).trans hpar⟩

/-- Settles O45, a kind of step at a time: time passes before an edge, at the end of a wait, or by a move of its own. -/
theorem clockMonotoneParametersConstant : Obligations.ClockMonotoneParametersConstant := by
  intro s t h
  rcases step_cases h with
    ⟨-, rfl⟩ | ⟨-, w, v, ms, h⟩ | ⟨-, v, l, h⟩ | ⟨-, v, a, i, hi, h⟩ | ⟨-, v, h⟩ | ⟨-, v, ms, rfl⟩
  · exact ⟨(finishAcquire_nowMs s).ge, rfl⟩
  · obtain ⟨hle, hpar⟩ := clockEdge_clock h
    exact ⟨(Nat.le_add_right _ ms).trans hle, hpar⟩
  · cases (exec_decodeWire l _).symm.trans h
    exact ⟨Nat.le_refl _, rfl⟩
  · obtain ⟨q, force, hq⟩ := decodeApi_read hi (s.withEnv v)
    obtain ⟨-, -, -, hpar, -, -, hnow⟩ := beginRead_frame (hq.symm.trans h)
    exact ⟨hnow.ge, hpar⟩
  · cases h
    exact ⟨Nat.le_refl _, rfl⟩
  · exact ⟨Nat.le_add_right _ ms, rfl⟩

end Sys2Proof.Machine
end

section
/-! PROOFS of the host family: the strobe, the fixed wait, and a read call from its start to its end
(43_host_coordinator R170, R171, R173 to R176, R184). -/

namespace Sys2Proof.Machine

/-! ### What an edge means to the host -/

/-- The host at the strobe, `n` edges and `ms` milliseconds of wait before it (R173, R174). -/
def Coordinator.loaded (h : Coordinator) (n ms : Nat) : Coordinator :=
  { h with coord := .waiting, waitLeft := n, wakeAt := h.nowMs + ms }

/-- The edges of the wait that a strobe in this state loads (R174, U25, entry 6). -/
def waitEdges (s : State) : Nat := s.par.waitCycles + Config.freeWaitSlack s.env.draws

/-- The host with `k` more edges of its wait gone by. -/
def Coordinator.waited (h : Coordinator) (k : Nat) : Coordinator := { h with waitLeft := h.waitLeft - k }

theorem Coordinator.waited_waited (h : Coordinator) (j k : Nat) : (h.waited j).waited k = h.waited (j + k) := by
  rw [Coordinator.waited, Coordinator.waited, Nat.sub_sub]
  rfl

theorem hostEdge_host_of_triggering {s : State} (h : s.host.coord = .triggering) :
    (hostEdge s).host = settleWait (s.host.loaded (waitEdges s) s.par.waitMs) := by
  rw [hostEdge, h]
  rfl

theorem hostEdge_host_of_waiting {s : State} (h : s.host.coord = .waiting) :
    (hostEdge s).host = settleWait (s.host.waited 1) := by
  rw [hostEdge, h]
  rfl

/-- A step whose move is an input word on which the block answers: the host's edge follows, from the host as it was. -/
theorem step_of_blockEdge {s u : State} {w : BitVec 3} {rest : List Move} (hc : s.host.coord ≠ .decoding)
    (hs : s.env.stimulus = .input w :: rest)
    (hu : blockEdge (portWord w s) (withLine (w.getLsbD 0) (withStimulus rest s)) = .next u) :
    step s = .next (hostEdge u) ∧ u.host = s.host ∧ u.par = s.par ∧ waitEdges u = waitEdges s ∧
      (hostEdge u).env.stimulus = rest := by
  obtain ⟨hhost, henv, hpar⟩ := blockEdge_frame hu
  refine ⟨by rw [step_of_input hc hs, hu, andThen_next], hhost, hpar, ?_, ?_⟩
  · rw [waitEdges, henv, hpar]; rfl
  · rw [hostEdge_stimulus, henv]; rfl

/-- With `start` raised on the port and `rst` low the block runs START (R81, R171). -/
theorem blockEdge_portWord_of_triggering {s : State} {w : BitVec 3} (hc : s.host.coord = .triggering)
    (hrst : w.getLsbD 2 = false) (u : State) : blockEdge (portWord w s) u = exec .start u := by
  rw [portWord_triggering w hc]
  exact blockEdge_of_start (by simpa using hrst) (by simp) u

/-- Settles O40: the edge runs START, and the host's part of it loads a wait of at least one edge. -/
theorem triggeringPulsesStart : Obligations.TriggeringPulsesStart := by
  intro s w rest hc hrst hs hpos
  have hstart := blockEdge_portWord_of_triggering hc hrst (withLine (w.getLsbD 0) (withStimulus rest s))
  obtain ⟨u, hu⟩ : ∃ u, exec .start (withLine (w.getLsbD 0) (withStimulus rest s)) = .next u := ⟨_, rfl⟩
  obtain ⟨hstep, hhost, hpar, hedges, hrest⟩ := step_of_blockEdge (by simp [hc]) hs (hstart.trans hu)
  have hexec : exec .start s = .next { s with eng := (hostEdge u).eng, asm := (hostEdge u).asm } := by
    rw [hostEdge_eng, hostEdge_asm]
    cases hu
    rfl
  have hlong : s.par.waitCycles ≤ waitEdges s := Nat.le_add_right _ _
  have hleft : waitEdges s ≠ 0 := by omega
  have hload : (hostEdge u).host = s.host.loaded (waitEdges s) s.par.waitMs := by
    rw [hostEdge_host_of_triggering (by rw [hhost, hc]), hhost, hpar, hedges]
    exact settleWait_pos hleft
  refine ⟨_, hstep, hexec, ?_⟩
  rw [hload]
  exact ⟨rfl, rfl, rfl, rfl, rfl, hlong, hrest⟩

/-- From a state that meets the invariant an edge answers, whatever its word, and keeps the invariant. -/
theorem State.Inv.step_edge {s : State} {w : BitVec 3} {rest : List Move} (h : s.Inv) (hc : s.host.coord ≠ .decoding)
    (hs : s.env.stimulus = .input w :: rest) :
    ∃ u, step s = .next (hostEdge u) ∧ (hostEdge u).Inv ∧ u.host = s.host ∧ u.par = s.par ∧
      waitEdges u = waitEdges s ∧ (hostEdge u).env.stimulus = rest := by
  have hblock : BlockInv (withLine (w.getLsbD 0) (withStimulus rest s)) := h.block.of_parts rfl rfl rfl
  obtain ⟨u, hu⟩ := hblock.blockEdge_answers (portWord w s)
  obtain ⟨hstep, hkept⟩ := step_of_blockEdge hc hs hu
  exact ⟨u, hstep, stepKeepsTheInvariant s _ h hstep, hkept⟩

/-! ### The wait -/

/-- Any edges, up to the number the wait has left, take the host so far through its wait (R174): `settleWait` says
whether that is its end. -/
theorem runSteps_waiting {h : Coordinator} {ws : List (BitVec 3)} {rest : List Move} {s : State} (hs : s.Inv)
    (hh : s.host = settleWait h) (hw : h.coord = .waiting) (hlen : ws.length ≤ h.waitLeft)
    (hm : s.env.stimulus = ws.map Move.input ++ rest) :
    ∃ t, runSteps ws.length s = .next t ∧ t.Inv ∧ t.host = settleWait (h.waited ws.length) ∧
      t.env.stimulus = rest := by
  induction ws generalizing h s with
  | nil => exact ⟨s, rfl, hs, hh, hm⟩
  | cons w ws ih =>
    rw [List.length_cons] at hlen
    have hhost : s.host = h := hh.trans (settleWait_pos (by omega))
    have hwait : s.host.coord = .waiting := by rw [hhost, hw]
    obtain ⟨u, hstep, hinv, huhost, -, -, hrest⟩ := hs.step_edge (by simp [hwait]) hm
    have hnext : (hostEdge u).host = settleWait (h.waited 1) := by
      rw [hostEdge_host_of_waiting (by rw [huhost, hwait]), huhost, hhost]
    obtain ⟨t, ht, htinv, hthost, htrest⟩ := ih hinv hnext hw (show ws.length ≤ h.waitLeft - 1 by omega) hrest
    refine ⟨t, ?_, htinv, ?_, htrest⟩
    · rw [List.length_cons, runSteps, hstep, andThen_next, ht]
    · rw [hthost, Coordinator.waited_waited, List.length_cons, Nat.add_comm]

/-- As many edges as the wait has left end it: the host is `Decoding` and its clock has reached the end of the wait. -/
theorem settleWait_waited_all {h : Coordinator} {n : Nat} (hn : n = h.waitLeft) :
    settleWait (h.waited n) = { h with coord := .decoding, waitLeft := 0, nowMs := max h.nowMs h.wakeAt } := by
  have hzero : h.waitLeft - n = 0 := by omega
  rw [Coordinator.waited, hzero]
  exact settleWait_zero rfl

/-- Settles O46: fewer edges than the wait has left leave an edge to come, and as many leave none. -/
theorem waitEndsUnconditionally : Obligations.WaitEndsUnconditionally := by
  intro s ws rest hs hc hlen hm
  have hsettled : s.host = settleWait s.host := (settleWait_pos (hs.host.wait_left hc).ne').symm
  refine ⟨fun k hk => ?inside, ?ended⟩
  case inside =>
    have htake : (ws.take k).length = k := List.length_take_of_le hk.le
    have hm' : s.env.stimulus = (ws.take k).map Move.input ++ ((ws.drop k).map Move.input ++ rest) := by
      rw [← List.append_assoc, ← List.map_append, List.take_append_drop, hm]
    obtain ⟨t, ht, -, hhost, -⟩ := runSteps_waiting hs hsettled hc (by omega) hm'
    rw [htake] at ht hhost
    rw [settleWait_pos (show s.host.waitLeft - k ≠ 0 by omega)] at hhost
    exact ⟨t, ht, by rw [hhost]; exact hc, by rw [hhost]; rfl⟩
  case ended =>
    obtain ⟨t, ht, -, hhost, hrest⟩ := runSteps_waiting hs hsettled hc hlen.le hm
    rw [settleWait_waited_all hlen] at hhost
    exact ⟨t, ht, by rw [hhost], by rw [hhost], by rw [hhost], hrest⟩

/-! ### A read call -/

/-- The step that plays a caller's read which must acquire (R170, R172). -/
theorem step_of_acquiring_call {s : State} {a : BitVec 3} {i : Instr} {q : Request} {force : Bool} {rest : List Move}
    (hc : s.host.coord = .idle) (hm : mustAcquire force s) (ha : encode i = .api a)
    (hi : ∀ u, exec i u = beginRead q force u) (hs : s.env.stimulus = .call a :: rest) :
    step s = .next ((withStimulus rest s).withHost { s.host with coord := .triggering, call := some q }) := by
  have hdecode : decodeApi a = .ok i := by
    have h := decode_encode i
    rw [ha] at h
    exact h
  calc step s
      = exec i (withStimulus rest s) := by rw [step_of_front (by simp [hc]) hs]; exact apiCall_of_decoded hdecode _
    _ = beginRead q force (withStimulus rest s) := hi _
    _ = _ := beginRead_of_mustAcquire (s := withStimulus rest s) hc hm q

/-- The strobe's edge and the edges of the wait take the host from `Triggering` to `Decoding`, with all it remembers
kept and its clock WAIT_MS on (R173, R174). -/
theorem runSteps_triggering {s : State} {ws : List (BitVec 3)} {rest : List Move} (hs : s.Inv)
    (hc : s.host.coord = .triggering) (hlen : ws.length = waitEdges s + 1)
    (hm : s.env.stimulus = ws.map Move.input ++ rest) :
    ∃ t, runSteps ws.length s = .next t ∧ t.env.stimulus = rest ∧
      t.host = { s.host with
        coord := .decoding, waitLeft := 0, wakeAt := s.host.nowMs + s.par.waitMs,
        nowMs := s.host.nowMs + s.par.waitMs } := by
  obtain ⟨w, ws, rfl⟩ := List.exists_cons_of_length_eq_add_one hlen
  have hwait : ws.length = waitEdges s := by simpa using hlen
  obtain ⟨u, hstep, hinv, hhost, hpar, hedges, hrest⟩ := hs.step_edge (by simp [hc]) hm
  have hload : (hostEdge u).host = settleWait (s.host.loaded (waitEdges s) s.par.waitMs) := by
    rw [hostEdge_host_of_triggering (by rw [hhost, hc]), hhost, hpar, hedges]
  obtain ⟨t, ht, -, hend, htrest⟩ := runSteps_waiting hinv hload rfl hwait.le hrest
  refine ⟨t, ?_, htrest, ?_⟩
  · rw [List.length_cons, runSteps, hstep, andThen_next, ht]
  · rw [hend, settleWait_waited_all hwait]
    simp [Coordinator.loaded]

/-- Settles O47: the call, the edges up to `Decoding`, and the host's own move, which acts on the port as that move
leaves it. -/
theorem readCallRunsToItsEnd : Obligations.ReadCallRunsToItsEnd := by
  intro s a i q force ws rest hs hc hm ha hi hlen hstim
  have hread : ∀ u, exec i u = beginRead q force u := by
    rcases hi with ⟨rfl, rfl⟩ | ⟨rfl, rfl⟩ | ⟨rfl, rfl⟩ <;> exact fun _ => rfl
  have hcall := step_of_acquiring_call hc hm ha hread hstim
  obtain ⟨u, hrun, hrest, hhost⟩ := runSteps_triggering (stepKeepsTheInvariant s _ hs hcall) rfl
    (show ws.length = waitEdges s + 1 by rw [waitEdges]; omega) rfl
  obtain ⟨t, hstep, -, hasm, henv, -, hidle, hnone, hnow, hfail, hok, hanswer⟩ :=
    decodingActsOnTheSnapshot u (by rw [hhost])
  have hport : resultPort t = resultPort u := resultPort_of_asm hasm
  rw [hhost] at hnow hfail hok hanswer
  refine ⟨t, ?_, hidle, hnone, hnow, henv ▸ hrest, hanswer q rfl, ?_, ?_⟩
  · exact runSteps_snoc (by rw [runSteps, hcall, andThen_next, hrun]) hstep
  · rw [hport]; exact hfail
  · rw [hport, hnow]; exact hok

end Sys2Proof.Machine
end
